-- ==== Sys2Proof/Word.lean ====
section
/-! DEFINITION. The word type of the machine (spec/00_scope.md R6, R8): every register, memory word and
instruction is a 32-bit unsigned value; an address is an 8-bit word index. -/

namespace Sys2Proof

/-- A 32-bit unsigned word, bit 0 least significant (R8). Registers, memory words, instructions and code points. -/
abbrev Word := BitVec 32

/-- A byte of a program image file. The core itself has no bytes (R36, R37); only the loader sees them. -/
abbrev Byte := BitVec 8

/-- An 8-bit memory-address field, a word index 0 to 255 (R33). -/
abbrev Addr := BitVec 8

end Sys2Proof
end

