-- ==== Sys2Proof/Config.lean ====
section
/-! DEFINITION. The fixed parameters of the hardware (spec/00_scope.md R6) and the open ones that stay fixed for a
run (R7): `char_valid`, `strip_cr` and `image_byte_order`. The other open parameters of R7 (`init_gpr`, `init_hi`,
`init_lo`, `init_mem`, `input`) are launch values: Machine/Launch.lean. -/

namespace Sys2Proof

/-- MEMWORDS: the memory has 256 words (R6, R21). -/
abbrev memWords : Nat := 256

/-- RESET_PC (R6, R19; spec/90_conflicts.md C2). -/
def resetPc : Word := 64

/-- HALT_WORD (R6, R58; spec/90_conflicts.md C1). -/
def haltWord : Word := 0xA8000000

/-- U+000A, the line end of console input (R112, D14). -/
def lineFeed : Word := 0x0A

/-- U+000D (R112, D14). -/
def carriageReturn : Word := 0x0D

/-- U+0030, the digit zero (R8, R115). -/
def digitZero : Word := 0x30

/-- The greatest code point the console delivers (D11). -/
def maxCodePoint : Word := 0x10FFFF

/-- `image_byte_order` (R7, R37, D7). -/
inductive ByteOrder where
  | little
  | big
  deriving DecidableEq, Repr

/-- The open parameters that stay fixed while the machine runs (R7). `char_valid : UInt32 → Bool` is held as plain
data, a list of closed ranges of valid words: every predicate on words is such a list, so a claim for every `Config`
is a claim for every `char_valid`. -/
structure Config where
  /-- `char_valid` (R7, R114, D12): the valid words are those inside one of these closed ranges. -/
  charRanges : List (Word × Word)
  /-- `strip_cr` (R7, R112, D14). -/
  stripCr : Bool
  /-- `image_byte_order` (R7, R37, D7); only the loader reads it. -/
  imageByteOrder : ByteOrder
  deriving DecidableEq, Repr

/-- The spec's defaults (R7): Unicode scalar values (R114), no stripping (D14), little-endian image files (D7). -/
def Config.default : Config where
  charRanges := [(0, 0xD7FF), (0xE000, 0x10FFFF)]
  stripCr := false
  imageByteOrder := .little

end Sys2Proof
end

