-- ==== Sys2Proof/Syntax.lean ====
section
/-! DEFINITION. The instructions: one constructor per row of spec/opcode_table.json, operands in the order of the
row's fields (spec/30_encoding.md R53, R56). -/

namespace Sys2Proof

/-- A general register r0 to r7 (R12, R13). -/
abbrev Reg := Fin 8

/-- r7, the argument and return slot of the syscalls (R14). -/
abbrev r7 : Reg := 7

/-- One constructor per row of the opcode table. The unused bits of a word are no operand (R54). -/
inductive Instr where
  | mov (src dst : Reg)
  | and (left right dst : Reg)
  | or (left right dst : Reg)
  | not (src dst : Reg)
  | add (left right dst : Reg)
  | sub (left right dst : Reg)
  | mul (left right : Reg)
  | div (left right : Reg)
  | mfhi (dst : Reg)
  | mflo (dst : Reg)
  | li (dst : Reg) (imm : BitVec 24)
  | lw (srcAddr : Addr) (dst : Reg)
  | si (dstAddr : Addr) (imm : BitVec 19)
  | sw (src : Reg) (dstAddr : Addr)
  | j (addr : Addr)
  | je (src tgt : Reg) (addr : Addr)
  | jne (src tgt : Reg) (addr : Addr)
  | jgt (src tgt : Reg) (addr : Addr)
  | jlt (src tgt : Reg) (addr : Addr)
  | jge (src tgt : Reg) (addr : Addr)
  | jle (src tgt : Reg) (addr : Addr)
  /-- The halt literal, the one word 0xA8000000 (R58). -/
  | halt
  /-- Any other opcode-21 word (R58, R117). -/
  | syscall (func : BitVec 3)
  /-- The table's row of opcodes 22 and 23, all illegal (R57). -/
  | invalid22 (opcode : BitVec 5)
  /-- The table's row of opcodes 24 to 31, all illegal (R57). -/
  | invalid24 (opcode : BitVec 5)
  deriving DecidableEq, Repr

/-- The opcode of an instruction, `w[31:27]` of its words (R51, R56). -/
def Instr.opcode : Instr → BitVec 5
  | .mov .. => 0
  | .and .. => 1
  | .or .. => 2
  | .not .. => 3
  | .add .. => 4
  | .sub .. => 5
  | .mul .. => 6
  | .div .. => 7
  | .mfhi .. => 8
  | .mflo .. => 9
  | .li .. => 10
  | .lw .. => 11
  | .si .. => 12
  | .sw .. => 13
  | .j .. => 14
  | .je .. => 15
  | .jne .. => 16
  | .jgt .. => 17
  | .jlt .. => 18
  | .jge .. => 19
  | .jle .. => 20
  | .halt => 21
  | .syscall .. => 21
  | .invalid22 op => op
  | .invalid24 op => op

end Sys2Proof
end

