-- ==== Sys2Proof/WellFormed.lean ====
section
/-! DEFINITION. Which terms of `Instr` stand for words. Every operand type has exactly the values of its field
(spec/30_encoding.md R55), so the only checks are the opcode ranges of the two illegal rows (R57). -/

namespace Sys2Proof

/-- The opcodes of the table's row 22..23. -/
def Instr.inRow22 (op : BitVec 5) : Bool := op == 22 || op == 23

/-- The opcodes of the table's row 24..31. -/
def Instr.inRow24 (op : BitVec 5) : Bool := decide (24 ≤ op.toNat)

/-- The check of one instruction, with a case for each constructor. -/
def Instr.check : Instr → Bool
  | .mov .. | .and .. | .or .. | .not .. | .add .. | .sub .. => true
  | .mul .. | .div .. | .mfhi .. | .mflo .. => true
  | .li .. | .lw .. | .si .. | .sw .. => true
  | .j .. | .je .. | .jne .. | .jgt .. | .jlt .. | .jge .. | .jle .. => true
  | .halt => true
  | .syscall _ => true
  | .invalid22 op => Instr.inRow22 op
  | .invalid24 op => Instr.inRow24 op

/-- An instruction that some 32-bit word decodes to. -/
abbrev WellFormed (i : Instr) : Prop := i.check = true

end Sys2Proof
end

