-- ==== Sys2Proof/Decode.lean ====
section
/-! DEFINITION. The instruction_decoder (spec/40_execution_loop.md R68), the decoder (spec/30_encoding.md R51 to
R60), total on all words, and the encoder (R62). -/

namespace Sys2Proof

/-- The extraction of R52: shift right by `32 - consumed`, then mask to `k` bits, where `consumed` counts the bits
from the top down to the field's last bit. -/
def field (consumed k : Nat) (w : Word) : BitVec k := (w >>> (32 - consumed)).setWidth k

/-- A 3-bit register field is used as is (R13, R55). -/
def Reg.ofField (f : BitVec 3) : Reg := f.toFin

/-- The 3-bit field that names a register. -/
def Reg.toField (r : Reg) : BitVec 3 := BitVec.ofFin r

/-- `w[31:27]` (R51). -/
def fieldOpcode (w : Word) : BitVec 5 := field 5 5 w
/-- `w[26:24]`: src, left, dst of mfhi, mflo and li, and func of syscall (R68). -/
def fieldRa (w : Word) : BitVec 3 := field 8 3 w
/-- `w[23:21]`: dst of mov and not, right, tgt (R68). -/
def fieldRb (w : Word) : BitVec 3 := field 11 3 w
/-- `w[20:18]`: dst of and, or, add, sub (R68). -/
def fieldRc (w : Word) : BitVec 3 := field 14 3 w
/-- `w[18:16]`: dst of lw (R68). -/
def fieldRl (w : Word) : BitVec 3 := field 16 3 w
/-- `w[26:19]`: src_addr of lw, dst_addr of si, addr of j (R68). -/
def fieldM1 (w : Word) : Addr := field 13 8 w
/-- `w[23:16]`: dst_addr of sw (R68). -/
def fieldM2 (w : Word) : Addr := field 16 8 w
/-- `w[20:13]`: addr of the conditional branches (R68). -/
def fieldM3 (w : Word) : Addr := field 19 8 w
/-- `w[23:0]`: imm of li (R68). -/
def fieldImm24 (w : Word) : BitVec 24 := field 32 24 w
/-- `w[18:0]`: imm of si (R68). -/
def fieldImm19 (w : Word) : BitVec 19 := field 32 19 w

/-- The dispatch on `w[31:27]` (R56, R57, R77), for a word that is not the halt literal. -/
def decodeOpcode (w : Word) : Instr :=
  let ra := Reg.ofField (fieldRa w)
  let rb := Reg.ofField (fieldRb w)
  let rc := Reg.ofField (fieldRc w)
  match (fieldOpcode w).toNat with
  | 0 => .mov ra rb
  | 1 => .and ra rb rc
  | 2 => .or ra rb rc
  | 3 => .not ra rb
  | 4 => .add ra rb rc
  | 5 => .sub ra rb rc
  | 6 => .mul ra rb
  | 7 => .div ra rb
  | 8 => .mfhi ra
  | 9 => .mflo ra
  | 10 => .li ra (fieldImm24 w)
  | 11 => .lw (fieldM1 w) (Reg.ofField (fieldRl w))
  | 12 => .si (fieldM1 w) (fieldImm19 w)
  | 13 => .sw ra (fieldM2 w)
  | 14 => .j (fieldM1 w)
  | 15 => .je ra rb (fieldM3 w)
  | 16 => .jne ra rb (fieldM3 w)
  | 17 => .jgt ra rb (fieldM3 w)
  | 18 => .jlt ra rb (fieldM3 w)
  | 19 => .jge ra rb (fieldM3 w)
  | 20 => .jle ra rb (fieldM3 w)
  | 21 => .syscall (fieldRa w)
  | 22 => .invalid22 (fieldOpcode w)
  | 23 => .invalid22 (fieldOpcode w)
  | _ => .invalid24 (fieldOpcode w)

/-- The instruction of a word: total on all 2^32 words (R60). The halt literal is recognised by comparing the whole
word, before the opcode is looked at (R58, R76); an illegal word decodes to its row's `invalid` constructor (R57). -/
def decode (w : Word) : Instr :=
  if w = haltWord then .halt else decodeOpcode w

/-- The bits a handler of this opcode reads, the opcode included (R53); the others are ignored (R54). -/
def usedMask (opcode : Nat) : Word :=
  match opcode with
  | 0 | 3 | 6 | 7 => 0xFFE00000
  | 1 | 2 | 4 | 5 => 0xFFFC0000
  | 8 | 9 | 21 => 0xFF000000
  | 10 | 12 => 0xFFFFFFFF
  | 11 => 0xFFFF0000
  | 13 => 0xFFFF0000
  | 14 => 0xFFF80000
  | 15 | 16 | 17 | 18 | 19 | 20 => 0xFFFFE000
  | _ => 0xF8000000

/-- A field of `k` bits put where the cumulative bit count `consumed` ends (R62). -/
def place (consumed : Nat) {k : Nat} (f : BitVec k) : Word := f.setWidth 32 <<< (32 - consumed)

/-- R62 for one register field. -/
def encodeR (op : BitVec 5) (a : Reg) : Word := place 5 op ||| place 8 a.toField
/-- R62 for the formats RR and RRHL. -/
def encodeRR (op : BitVec 5) (a b : Reg) : Word := encodeR op a ||| place 11 b.toField
/-- R62 for the format RRR. -/
def encodeRRR (op : BitVec 5) (a b c : Reg) : Word := encodeRR op a b ||| place 14 c.toField
/-- R62 for the format RRM. -/
def encodeRRM (op : BitVec 5) (a b : Reg) (m : Addr) : Word := encodeRR op a b ||| place 19 m
/-- R62 for the format M, and for the first two fields of MR and MI19. -/
def encodeM (op : BitVec 5) (m : Addr) : Word := place 5 op ||| place 13 m

/-- The word of an instruction, every unused bit 0 (R62). `syscall 0` so comes out as the halt literal (R62, R64);
an illegal opcode is placed alone. -/
def encode : Instr → Word
  | .mov a b => encodeRR 0 a b
  | .and a b c => encodeRRR 1 a b c
  | .or a b c => encodeRRR 2 a b c
  | .not a b => encodeRR 3 a b
  | .add a b c => encodeRRR 4 a b c
  | .sub a b c => encodeRRR 5 a b c
  | .mul a b => encodeRR 6 a b
  | .div a b => encodeRR 7 a b
  | .mfhi a => encodeR 8 a
  | .mflo a => encodeR 9 a
  | .li a imm => encodeR 10 a ||| place 32 imm
  | .lw m c => encodeM 11 m ||| place 16 c.toField
  | .si m imm => encodeM 12 m ||| place 32 imm
  | .sw a m => encodeR 13 a ||| place 16 m
  | .j m => encodeM 14 m
  | .je a b m => encodeRRM 15 a b m
  | .jne a b m => encodeRRM 16 a b m
  | .jgt a b m => encodeRRM 17 a b m
  | .jlt a b m => encodeRRM 18 a b m
  | .jge a b m => encodeRRM 19 a b m
  | .jle a b m => encodeRRM 20 a b m
  | .halt => place 5 (21 : BitVec 5)
  | .syscall f => place 5 (21 : BitVec 5) ||| place 8 f
  | .invalid22 op => place 5 op
  | .invalid24 op => place 5 op

/-- The word whose low `nbits` bits are those of `w` and whose other bits are 0. -/
def tableWord (nbits w : Nat) : Word := BitVec.ofNat 32 (w % 2 ^ nbits)

/-- What the decoder reads from a table word. A word is one memory unit, so nothing is laid out in bytes (R37). -/
def decodeTableWord (nbits w : Nat) : Option Instr := some (decode (tableWord nbits w))

end Sys2Proof
end

