-- ==== Sys2Proof/Machine/State.lean ====
section
/-! DEFINITION. The state of the core and of its console (spec/10_state.md R12 to R30), as plain data, and the state
right after reset (spec/70_reset_and_hazards.md R141). -/

namespace Sys2Proof.Machine

/-- Why a run halted cleanly (R23). The host cannot tell the two apart (R132). -/
inductive HaltCause where
  /-- The fetched word was 0xA8000000 (R76). -/
  | haltLiteral
  /-- `pc >= 256` at the start of a step (R74). -/
  | pcExhausted
  deriving DecidableEq, Repr

/-- The fatal reasons of R127, each with the information it records. -/
inductive FatalReason where
  /-- Code 1: the opcode 22..31 (R57). -/
  | invalidOpcode (opcode : BitVec 5)
  /-- Code 2: `syscall` with func 7; the code (R126). -/
  | invalidSyscall (code : BitVec 3)
  /-- Code 3: `div` by a register holding 0; the `div` word (R92). -/
  | divideByZero (word : Word)
  /-- Code 4: syscall 4 read a line that `parse_uint` rejects; the line (R123). -/
  | parseError (line : List Word)
  /-- Code 5: syscall 2 or 3 met a word that fails `char_valid`; the word (R121, R122). -/
  | invalidCharacter (value : Word)
  /-- Code 6: syscall 5 found the input at its end (R124). -/
  | inputExhausted
  deriving DecidableEq, Repr

/-- The run state (R23). `halted` and `fatal` are terminal (R79). -/
inductive RunState where
  | running
  | halted (cause : HaltCause)
  | fatal (reason : FatalReason)
  deriving DecidableEq, Repr

/-- What the host may do to the console input (R137): append code points, or signal the end of the input. -/
inductive HostEvent where
  | append (codePoints : List Word)
  | endOfInput
  deriving DecidableEq, Repr

/-- The console input `inp` (R29, R112): what the host has delivered and the core has not read yet, whether the host
has signalled the end, and what the host has still to do, in order. -/
structure InputStream where
  arrived : List Word
  ended : Bool
  coming : List HostEvent
  deriving DecidableEq, Repr

/-- The console port (R29). `out` holds every code point written so far, in order (R111). -/
structure Console where
  out : List Word
  inp : InputStream
  deriving DecidableEq, Repr

/-- Memory (R21): pairs of a word index and the word there, indices strictly rising, every index below 256, no entry
equal to what an unlisted index reads as (`Memory.wf`, Machine/Ops.lean). The addressable unit is the 32-bit word;
there are no bytes (R36, R37). -/
abbrev Memory := List (Nat × Word)

/-- The whole state: the six items of R30, the console beside them, and the open parameters of R7 that stay fixed. -/
structure State where
  /-- r0 to r7 (R12). -/
  gpr : Vector Word 8
  /-- HI (R16). -/
  hi : Word
  /-- LO (R16). -/
  lo : Word
  /-- The program counter, a word index of 32 bits (R18). -/
  pc : Word
  /-- The one memory of 256 words (R21). -/
  mem : Memory
  /-- The run state (R23). -/
  run : RunState
  /-- The console (R29). -/
  console : Console
  /-- The open parameters (R7); no step changes them. -/
  cfg : Config
  deriving DecidableEq, Repr

/-- Why `step` has no next state. No meaning of an instruction answers a fault: every fatal condition of the spec is
a next state whose run state is `fatal` (R128). -/
inductive Fault where
  /-- Raised by `step` alone, in a `halted` state, which has no step (R79). Safe: the run has ended cleanly. -/
  | noStepHalted (cause : HaltCause)
  /-- Raised by `step` alone, in a `fatal` state, which has no step (R79). Safe: the run has ended. -/
  | noStepFatal (reason : FatalReason)
  deriving DecidableEq, Repr

/-- Why the model gives an instruction no meaning. -/
inductive Refusal where
  /-- Raised by an arm of `exec` that has no meaning yet. Safe. No arm answers it. -/
  | notModelled (mnemonic : String)
  deriving DecidableEq, Repr

/-- The machine right after reset with nothing placed in it. `pc` = 64 (R19), `running` (R24) and `out` empty (R111)
are the spec's. DESIGN CHOICE (log 1 to 4): the registers, HI, LO and every memory word are 0, no input has been
delivered or is coming, and the end of the input is not signalled; the spec leaves all of these open. -/
def State.reset : State where
  gpr := Vector.replicate 8 0
  hi := 0
  lo := 0
  pc := resetPc
  mem := []
  run := .running
  console := { out := [], inp := { arrived := [], ended := false, coming := [] } }
  cfg := Config.default

end Sys2Proof.Machine
end

