-- ==== Sys2Proof/Machine/Ops.lean ====
section
/-! DEFINITION. The named operations over registers, memory, run state and console. Every read and write of a
meaning goes through one of these. -/

namespace Sys2Proof.Machine

/-! ### register_file (R12, R13, R69) -/

/-- `r[i]` (R9). No register is hard-wired (R12). -/
def State.reg (s : State) (r : Reg) : Word := s.gpr[r.val]

/-- `r[i] <- v` (R9). -/
def State.setReg (s : State) (r : Reg) (v : Word) : State := { s with gpr := s.gpr.set r.val v }

/-- The HI/LO write of `mul` and `div`, always both together (R16, R69). -/
def State.setHiLo (s : State) (hi lo : Word) : State := { s with hi := hi, lo := lo }

/-! ### memory_unit (R21, R33, R39) -/

/-- What an index that the list does not hold reads as. DESIGN CHOICE (log 3). -/
def unlistedWord : Word := 0

/-- The word at a key. -/
def Memory.find : Memory → Nat → Word
  | [], _ => unlistedWord
  | (k, w) :: m, a => if a = k then w else Memory.find m a

/-- The memory with key `a` holding `v`, in canonical form. -/
def Memory.put : Memory → Nat → Word → Memory
  | [], a, v => if v = unlistedWord then [] else [(a, v)]
  | (k, w) :: m, a, v =>
    if a < k then (if v = unlistedWord then (k, w) :: m else (a, v) :: (k, w) :: m)
    else if a = k then (if v = unlistedWord then m else (a, v) :: m)
    else (k, w) :: Memory.put m a v

/-- The canonical form: keys below 256 and strictly rising, no entry equal to what an unlisted index reads as. -/
def Memory.wf : Memory → Bool
  | [] => true
  | (k, w) :: m =>
    decide (k < memWords) && decide (w ≠ unlistedWord) && m.all (fun c => decide (k < c.1)) && Memory.wf m

/-- `MemRead(a, 1)` (R9, R39). An 8-bit index is always in range (R33). -/
def Memory.read (m : Memory) (a : Addr) : Word := Memory.find m a.toNat

/-- `MemWrite(a, 1, v)` (R9, R39). -/
def Memory.write (m : Memory) (a : Addr) (v : Word) : Memory := Memory.put m a.toNat v

/-- The words at the indices `a, a+1, …, 255`, in order: what a walk upward from `a` meets before it reaches 256
(R34, R122); none from an index of 256 or more. -/
def Memory.wordsFrom (m : Memory) (a : Nat) : List Word :=
  (List.range' a (memWords - a)).map fun i => m.read (BitVec.ofNat 8 i)

/-- The walk of R125: write the words at `a, a+1, …`, dropping the rest at index 256. The loader's copy of an image
from index 0 is the same walk (R22). -/
def Memory.writeFrom (m : Memory) (a : Nat) : List Word → Memory
  | [] => m
  | c :: cs => if a < memWords then Memory.writeFrom (m.write (BitVec.ofNat 8 a) c) (a + 1) cs else m

/-- `MemRead` of the state's memory. -/
def State.memRead (s : State) (a : Addr) : Word := Memory.read s.mem a

/-- `MemWrite` of the state's memory. -/
def State.memWrite (s : State) (a : Addr) (v : Word) : State := { s with mem := Memory.write s.mem a v }

/-! ### program_counter and run state (R18, R23, R66) -/

/-- `pc >= memory length`, on all 32 bits of `pc` (R67, R74). -/
def State.exhausted (s : State) : Bool := decide (memWords ≤ s.pc.toNat)

/-- `word = memory[pc]` (R75), for a `pc` below 256. -/
def State.fetchWord (s : State) : Word := s.memRead (s.pc.setWidth 8)

/-- The increment of R78, after every handler that raises nothing. -/
def State.retire (s : State) : State := { s with pc := s.pc + 1 }

/-- The handler's part of a taken jump (R101); the increment follows. -/
def State.jump (s : State) (addr : Addr) : State := { s with pc := addr.setWidth 32 }

/-- A jump or not, then the increment (R101). -/
def State.branch (s : State) (taken : Bool) (addr : Addr) : State :=
  (if taken then s.jump addr else s).retire

/-- `halt(cause)`: the run state and nothing else (R74, R76). -/
def State.halt (s : State) (c : HaltCause) : State := { s with run := .halted c }

/-- `raise Fatal(reason, info)`, the one way this core takes an exceptional condition (R128): the run state becomes
`Fatal`, nothing is committed, `pc` stays at the instruction. There is no vector, no saved register and no return
(R130, R131). -/
def State.raiseFatal (s : State) (r : FatalReason) : State := { s with run := .fatal r }

/-- The spec's label of a fatal reason (R127). -/
def FatalReason.code : FatalReason → Nat
  | .invalidOpcode _ => 1
  | .invalidSyscall _ => 2
  | .divideByZero _ => 3
  | .parseError _ => 4
  | .invalidCharacter _ => 5
  | .inputExhausted => 6

/-! ### Console port (R111 to R116) -/

/-- `ConsoleWrite(cs)` (R111). -/
def Console.write (c : Console) (cs : List Word) : Console := { c with out := c.out ++ cs }

/-- `char_valid(v)` (R114). -/
def charValid (cfg : Config) (v : Word) : Bool :=
  cfg.charRanges.any fun r => decide (r.1.toNat ≤ v.toNat) && decide (v.toNat ≤ r.2.toNat)

/-- The digits of `n`, most significant first, put before `acc`; `fuel` bounds their number. -/
def decimalDigits : Nat → Nat → List Word → List Word
  | 0, _, acc => acc
  | fuel + 1, n, acc =>
    let acc' := BitVec.ofNat 32 (digitZero.toNat + n % 10) :: acc
    if n / 10 = 0 then acc' else decimalDigits fuel (n / 10) acc'

/-- `decimal(v)` (R115). A word has at most ten digits. -/
def decimal (v : Word) : List Word := decimalDigits 10 v.toNat []

/-- An ASCII digit U+0030 to U+0039 (R116). -/
def isDigit (c : Word) : Bool := decide (digitZero.toNat ≤ c.toNat) && decide (c.toNat ≤ digitZero.toNat + 9)

/-- The decimal value of a list of digits. -/
def digitsValue (cs : List Word) : Nat := cs.foldl (fun n c => 10 * n + (c.toNat - digitZero.toNat)) 0

/-- `parse_uint(cs)` (R116). -/
def parseUint (cs : List Word) : Option Word :=
  if cs ≠ [] ∧ cs.all isDigit ∧ digitsValue cs ≤ 0xFFFFFFFF then some (BitVec.ofNat 32 (digitsValue cs)) else none

/-- What a console read does: it waits, it meets the end of the input, or it takes something and leaves the rest. -/
inductive ReadResult (α : Type) where
  | wait
  | endOfInput
  | got (value : α) (rest : List Word)
  deriving DecidableEq, Repr

/-- The code points before the first U+000A and those after it, if there is one. -/
def splitLine : List Word → Option (List Word × List Word)
  | [] => none
  | c :: cs =>
    if c = lineFeed then some ([], cs)
    else match splitLine cs with
      | some (l, rest) => some (c :: l, rest)
      | none => none

/-- The last step of R112: with `strip_cr`, a U+000D at the line's end is dropped. -/
def stripLine (strip : Bool) (cs : List Word) : List Word :=
  if strip && cs.getLast? == some carriageReturn then cs.dropLast else cs

/-- `ConsoleReadLine()` (R112). -/
def InputStream.readLine (i : InputStream) (strip : Bool) : ReadResult (List Word) :=
  match splitLine i.arrived with
  | some (cs, rest) => .got (stripLine strip cs) rest
  | none =>
    if !i.ended then .wait
    else if i.arrived = [] then .endOfInput
    else .got (stripLine strip i.arrived) []

/-- `ConsoleReadChar()` (R113). -/
def InputStream.readChar (i : InputStream) : ReadResult Word :=
  match i.arrived with
  | c :: rest => .got c rest
  | [] => if !i.ended then .wait else .endOfInput

/-- The console after a read that left `rest` of what had arrived. -/
def Console.consume (c : Console) (rest : List Word) : Console := { c with inp := { c.inp with arrived := rest } }

/-! ### What the host does (R137) -/

/-- One host action on the input. After the end of the input has been signalled nothing more arrives (DEDUCED,
log 7). -/
def InputStream.deliver (i : InputStream) (e : HostEvent) : InputStream :=
  if i.ended then i
  else match e with
    | .append cs => { i with arrived := i.arrived ++ cs }
    | .endOfInput => { i with ended := true }

/-- One host action on the whole state: it never writes anything but the console input (R137). -/
def State.deliver (s : State) (e : HostEvent) : State :=
  { s with console := { s.console with inp := s.console.inp.deliver e } }

/-- A wait (R80): the core changes nothing, `pc` included, and only the host can lift the wait. If the host has
something still to do, it does the first of it; if not, nothing changes (DESIGN CHOICE, log 5, log 6). -/
def State.hold (s : State) : State :=
  match s.console.inp.coming with
  | [] => s
  | e :: rest =>
    State.deliver { s with console := { s.console with inp := { s.console.inp with coming := rest } } } e

end Sys2Proof.Machine
end

