-- ==== Sys2Proof/Machine/Flags.lean ====
section
/-! DEFINITION. The core has no flags (spec/10_state.md R25): no instruction writes one, and a branch compares two
registers. This file holds the 1-bit results the alu has in their place (spec/40_execution_loop.md R70): the six
unsigned comparisons (spec/44_control_transfer.md R102) and the divide-by-zero signal. -/

namespace Sys2Proof.Machine

/-- EQ (R102). -/
def condEq (a b : Word) : Bool := a == b
/-- NE (R102). -/
def condNe (a b : Word) : Bool := a != b
/-- GTU (R102). -/
def condGtu (a b : Word) : Bool := decide (b.toNat < a.toNat)
/-- LTU (R102). -/
def condLtu (a b : Word) : Bool := decide (a.toNat < b.toNat)
/-- GEU (R102). -/
def condGeu (a b : Word) : Bool := decide (b.toNat ≤ a.toNat)
/-- LEU (R102). -/
def condLeu (a b : Word) : Bool := decide (a.toNat ≤ b.toNat)
/-- `dz` of DIVU (R70). -/
def divByZero (b : Word) : Bool := b == 0

end Sys2Proof.Machine
end

