-- ==== Sys2Proof/Machine/Control.lean ====
section
/-! DEFINITION. Opcodes 14 to 20: the jump and the conditional branches (spec/44_control_transfer.md). The increment
of R78 follows a taken jump, so execution goes on at `addr + 1` (R101). -/

namespace Sys2Proof.Machine

/-- `j` (R103). -/
def execJ (addr : Addr) (s : State) : Host.Outcome State Fault Refusal :=
  .next (s.branch true addr)

/-- `je` (R104). -/
def execJe (src tgt : Reg) (addr : Addr) (s : State) : Host.Outcome State Fault Refusal :=
  .next (s.branch (condEq (s.reg src) (s.reg tgt)) addr)

/-- `jne` (R105). -/
def execJne (src tgt : Reg) (addr : Addr) (s : State) : Host.Outcome State Fault Refusal :=
  .next (s.branch (condNe (s.reg src) (s.reg tgt)) addr)

/-- `jgt` (R106). -/
def execJgt (src tgt : Reg) (addr : Addr) (s : State) : Host.Outcome State Fault Refusal :=
  .next (s.branch (condGtu (s.reg src) (s.reg tgt)) addr)

/-- `jlt` (R107). -/
def execJlt (src tgt : Reg) (addr : Addr) (s : State) : Host.Outcome State Fault Refusal :=
  .next (s.branch (condLtu (s.reg src) (s.reg tgt)) addr)

/-- `jge` (R108). -/
def execJge (src tgt : Reg) (addr : Addr) (s : State) : Host.Outcome State Fault Refusal :=
  .next (s.branch (condGeu (s.reg src) (s.reg tgt)) addr)

/-- `jle` (R109). -/
def execJle (src tgt : Reg) (addr : Addr) (s : State) : Host.Outcome State Fault Refusal :=
  .next (s.branch (condLeu (s.reg src) (s.reg tgt)) addr)

end Sys2Proof.Machine
end

