-- ==== Sys2Proof/Machine/Operands.lean ====
section
/-! DEFINITION. The operand forms of the instructions (spec/30_encoding.md R55): a register used as is (Ops.lean,
`State.reg`), an absolute address (R33, R95) and two zero-extended immediates. No field is sign-extended, scaled or
shifted, and no base register is written back. -/

namespace Sys2Proof.Machine

/-- The immediate of `li`: `zext_32(w[23:0])` (R55, R96). -/
def immLi (imm : BitVec 24) : Word := imm.setWidth 32

/-- The immediate of `si`: `zext_32(w[18:0])` (R55, R98). -/
def immSi (imm : BitVec 19) : Word := imm.setWidth 32

/-- The effective address of `lw`, `si` and `sw`: the field itself, a word index (R33, R95). -/
def effAddr (a : Addr) : Addr := a

end Sys2Proof.Machine
end

