-- ==== Sys2Proof/Machine/LoadStore.lean ====
section
/-! DEFINITION. Opcodes 10 to 13: immediate load, load and stores (spec/43_load_store_imm.md). The only addressing
mode is the absolute 8-bit word index (R95). -/

namespace Sys2Proof.Machine

/-- `li` (R96). -/
def execLi (dst : Reg) (imm : BitVec 24) (s : State) : Host.Outcome State Fault Refusal :=
  .next (s.setReg dst (immLi imm)).retire

/-- `lw` (R97). -/
def execLw (srcAddr : Addr) (dst : Reg) (s : State) : Host.Outcome State Fault Refusal :=
  .next (s.setReg dst (s.memRead (effAddr srcAddr))).retire

/-- `si` (R98). -/
def execSi (dstAddr : Addr) (imm : BitVec 19) (s : State) : Host.Outcome State Fault Refusal :=
  .next (s.memWrite (effAddr dstAddr) (immSi imm)).retire

/-- `sw` (R99). -/
def execSw (src : Reg) (dstAddr : Addr) (s : State) : Host.Outcome State Fault Refusal :=
  .next (s.memWrite (effAddr dstAddr) (s.reg src)).retire

end Sys2Proof.Machine
end

