-- ==== Sys2Proof/Machine/Alu.lean ====
section
/-! DEFINITION. The arithmetic of the alu (spec/40_execution_loop.md R70), one definition per operation, all on
unsigned 32-bit words (spec/41_logic_arith.md R83, spec/42_muldiv_hilo.md R90). -/

namespace Sys2Proof.Machine

/-- PASS (R84). -/
def aluPass (a : Word) : Word := a
/-- AND (R85). -/
def aluAnd (a b : Word) : Word := a &&& b
/-- OR (R86). -/
def aluOr (a b : Word) : Word := a ||| b
/-- NOT, of all 32 bits (R87). -/
def aluNot (a : Word) : Word := ~~~a
/-- ADD modulo 2^32 (R88). -/
def aluAdd (a b : Word) : Word := a + b
/-- SUB modulo 2^32 (R89). -/
def aluSub (a b : Word) : Word := a - b
/-- MUL: the exact 64-bit product of the zero-extended operands (R91). -/
def aluMul (a b : Word) : BitVec 64 := a.setWidth 64 * b.setWidth 64
/-- Bits [63:32] of a product. -/
def productHi (p : BitVec 64) : Word := p.extractLsb' 32 32
/-- Bits [31:0] of a product. -/
def productLo (p : BitVec 64) : Word := p.extractLsb' 0 32
/-- The quotient of DIVU (R92); only used when the divisor is not 0. -/
def aluQuotient (a b : Word) : Word := a / b
/-- The remainder of DIVU (R92); only used when the divisor is not 0. -/
def aluRemainder (a b : Word) : Word := a % b

end Sys2Proof.Machine
end

