-- ==== Sys2Proof/Machine/Logic.lean ====
section
/-! DEFINITION. Opcodes 0 to 5: register moves, logic, add and subtract (spec/41_logic_arith.md). -/

namespace Sys2Proof.Machine

/-- `mov` (R84). -/
def execMov (src dst : Reg) (s : State) : Host.Outcome State Fault Refusal :=
  .next (s.setReg dst (aluPass (s.reg src))).retire

/-- `and` (R85). -/
def execAnd (left right dst : Reg) (s : State) : Host.Outcome State Fault Refusal :=
  .next (s.setReg dst (aluAnd (s.reg left) (s.reg right))).retire

/-- `or` (R86). -/
def execOr (left right dst : Reg) (s : State) : Host.Outcome State Fault Refusal :=
  .next (s.setReg dst (aluOr (s.reg left) (s.reg right))).retire

/-- `not` (R87). -/
def execNot (src dst : Reg) (s : State) : Host.Outcome State Fault Refusal :=
  .next (s.setReg dst (aluNot (s.reg src))).retire

/-- `add` (R88). -/
def execAdd (left right dst : Reg) (s : State) : Host.Outcome State Fault Refusal :=
  .next (s.setReg dst (aluAdd (s.reg left) (s.reg right))).retire

/-- `sub` (R89). -/
def execSub (left right dst : Reg) (s : State) : Host.Outcome State Fault Refusal :=
  .next (s.setReg dst (aluSub (s.reg left) (s.reg right))).retire

end Sys2Proof.Machine
end

