-- ==== Sys2Proof/Machine/LoopEnds.lean ====
section
/-! DEFINITION. The rows of the opcode table that end the run: the halt literal (spec/40_execution_loop.md R76) and
the illegal opcodes (spec/30_encoding.md R57). -/

namespace Sys2Proof.Machine

/-- The halt literal: the run state becomes `Halted(HaltLiteral)` and nothing else changes, `pc` included (R76). -/
def execHalt (s : State) : Host.Outcome State Fault Refusal :=
  .next (s.halt .haltLiteral)

/-- Opcodes 22 and 23: `Fatal(InvalidOpcode, opcode)` (R57, R77, R128). -/
def execInvalid22 (opcode : BitVec 5) (s : State) : Host.Outcome State Fault Refusal :=
  .next (s.raiseFatal (.invalidOpcode opcode))

/-- Opcodes 24 to 31: `Fatal(InvalidOpcode, opcode)` (R57, R77, R128). -/
def execInvalid24 (opcode : BitVec 5) (s : State) : Host.Outcome State Fault Refusal :=
  .next (s.raiseFatal (.invalidOpcode opcode))

end Sys2Proof.Machine
end

