-- ==== Sys2Proof/Machine/MulDiv.lean ====
section
/-! DEFINITION. Opcodes 6 to 9: multiply, divide and the moves from HI and LO (spec/42_muldiv_hilo.md). -/

namespace Sys2Proof.Machine

/-- `mul` (R91). -/
def execMul (left right : Reg) (s : State) : Host.Outcome State Fault Refusal :=
  let p := aluMul (s.reg left) (s.reg right)
  .next (s.setHiLo (productHi p) (productLo p)).retire

/-- `div` (R92). A divisor of 0 is fatal and writes nothing; the word recorded is the one at `pc`, which is the
`div` itself (R127, R128; DEDUCED, log 9). -/
def execDiv (left right : Reg) (s : State) : Host.Outcome State Fault Refusal :=
  let a := s.reg left
  let b := s.reg right
  if divByZero b then .next (s.raiseFatal (.divideByZero s.fetchWord))
  else .next (s.setHiLo (aluRemainder a b) (aluQuotient a b)).retire

/-- `mfhi` (R93). -/
def execMfhi (dst : Reg) (s : State) : Host.Outcome State Fault Refusal :=
  .next (s.setReg dst s.hi).retire

/-- `mflo` (R94). -/
def execMflo (dst : Reg) (s : State) : Host.Outcome State Fault Refusal :=
  .next (s.setReg dst s.lo).retire

end Sys2Proof.Machine
end

