-- ==== Sys2Proof/Machine/Syscall.lean ====
section
/-! DEFINITION. Opcode 21: `syscall` and the syscall_mux (spec/45_syscall.md; spec/40_execution_loop.md R72). -/

namespace Sys2Proof.Machine

/-- The outputs of the syscall_mux (R72): a write of r7, the memory and the console it leaves, a hold while it waits
for input, and a fatal reason. A hold or a fatal reason leaves r7 and memory alone (R118, R128). -/
structure MuxOut where
  r7Write : Option Word
  mem : Memory
  console : Console
  hold : Bool
  fatal : Option FatalReason
  deriving DecidableEq, Repr

/-- The outputs of a handler that does nothing. -/
def MuxOut.idle (s : State) : MuxOut where
  r7Write := none
  mem := s.mem
  console := s.console
  hold := false
  fatal := none

/-- The walk of syscall 3 over the words it meets (R122): what it writes, and the first word that fails
`char_valid`, if it comes to one before a zero word. -/
def scanString (cfg : Config) : List Word → List Word × Option Word
  | [] => ([], none)
  | v :: vs =>
    if v = 0 then ([], none)
    else if !charValid cfg v then ([], some v)
    else (v :: (scanString cfg vs).1, (scanString cfg vs).2)

/-- Code 0: nothing (R119). -/
def sysNoop (s : State) : MuxOut := MuxOut.idle s

/-- Code 1: print r7 in decimal (R120). -/
def sysPrintInt (s : State) : MuxOut :=
  { MuxOut.idle s with console := s.console.write (decimal (s.reg r7)) }

/-- Code 2: print r7 as one character (R121). -/
def sysPrintChar (s : State) : MuxOut :=
  let v := s.reg r7
  if !charValid s.cfg v then { MuxOut.idle s with fatal := some (.invalidCharacter v) }
  else { MuxOut.idle s with console := s.console.write [v] }

/-- Code 3: print the zero-terminated string at index r7 (R122). What was written before a failing word stays
(R128). -/
def sysPrintString (s : State) : MuxOut :=
  let r := scanString s.cfg (Memory.wordsFrom s.mem (s.reg r7).toNat)
  { MuxOut.idle s with console := s.console.write r.1, fatal := r.2.map .invalidCharacter }

/-- Code 4: read a line as an unsigned integer into r7 (R123). The line is consumed even when it is malformed
(R128). -/
def sysReadInt (s : State) : MuxOut :=
  match s.console.inp.readLine s.cfg.stripCr with
  | .wait => { MuxOut.idle s with hold := true }
  | .endOfInput => MuxOut.idle s
  | .got cs rest =>
    match parseUint cs with
    | some v => { MuxOut.idle s with r7Write := some v, console := s.console.consume rest }
    | none => { MuxOut.idle s with console := s.console.consume rest, fatal := some (.parseError cs) }

/-- Code 5: read one code point into r7 (R124). -/
def sysReadChar (s : State) : MuxOut :=
  match s.console.inp.readChar with
  | .wait => { MuxOut.idle s with hold := true }
  | .endOfInput => { MuxOut.idle s with fatal := some .inputExhausted }
  | .got c rest => { MuxOut.idle s with r7Write := some c, console := s.console.consume rest }

/-- Code 6: read a line into memory from index r7 upward (R125). -/
def sysReadString (s : State) : MuxOut :=
  match s.console.inp.readLine s.cfg.stripCr with
  | .wait => { MuxOut.idle s with hold := true }
  | .endOfInput => MuxOut.idle s
  | .got cs rest =>
    { MuxOut.idle s with
      mem := Memory.writeFrom s.mem (s.reg r7).toNat cs, console := s.console.consume rest }

/-- Code 7: not in the table, fatal before anything is read (R126, R129). -/
def sysInvalid (func : BitVec 3) (s : State) : MuxOut :=
  { MuxOut.idle s with fatal := some (.invalidSyscall func) }

/-- The fixed syscall table (R59, R72, R117). -/
def syscallMux (func : BitVec 3) (s : State) : MuxOut :=
  match func.toNat with
  | 0 => sysNoop s
  | 1 => sysPrintInt s
  | 2 => sysPrintChar s
  | 3 => sysPrintString s
  | 4 => sysReadInt s
  | 5 => sysReadChar s
  | 6 => sysReadString s
  | _ => sysInvalid func s

/-- What the step does with the outputs of the mux: a hold (R80); a fatal end that keeps only the console's part of
the step (R128); or the writes, and then the increment of R78. -/
def State.applyMux (s : State) (o : MuxOut) : State :=
  if o.hold then s.hold
  else match o.fatal with
    | some r => State.raiseFatal { s with console := o.console } r
    | none =>
      let t : State := { s with mem := o.mem, console := o.console }
      match o.r7Write with
      | some v => (t.setReg r7 v).retire
      | none => t.retire

/-- `syscall` (R117). -/
def execSyscall (func : BitVec 3) (s : State) : Host.Outcome State Fault Refusal :=
  .next (s.applyMux (syscallMux func s))

end Sys2Proof.Machine
end

