-- ==== Sys2Proof/Machine/Dispatch.lean ====
section
/-! DEFINITION. opcode_dispatch (spec/40_execution_loop.md R71, R77): the fixed mapping from an instruction to its
handler. Each meaning holds the increment of R78 that follows the handler. -/

namespace Sys2Proof.Machine

def exec (i : Instr) (s : State) : Host.Outcome State Fault Refusal :=
  match i with
  | .mov a b => Sys2Proof.Machine.execMov a b s
  | .and a b c => Sys2Proof.Machine.execAnd a b c s
  | .or a b c => Sys2Proof.Machine.execOr a b c s
  | .not a b => Sys2Proof.Machine.execNot a b s
  | .add a b c => Sys2Proof.Machine.execAdd a b c s
  | .sub a b c => Sys2Proof.Machine.execSub a b c s
  | .mul a b => Sys2Proof.Machine.execMul a b s
  | .div a b => Sys2Proof.Machine.execDiv a b s
  | .mfhi a => Sys2Proof.Machine.execMfhi a s
  | .mflo a => Sys2Proof.Machine.execMflo a s
  | .li a imm => Sys2Proof.Machine.execLi a imm s
  | .lw m a => Sys2Proof.Machine.execLw m a s
  | .si m imm => Sys2Proof.Machine.execSi m imm s
  | .sw a m => Sys2Proof.Machine.execSw a m s
  | .j m => Sys2Proof.Machine.execJ m s
  | .je a b m => Sys2Proof.Machine.execJe a b m s
  | .jne a b m => Sys2Proof.Machine.execJne a b m s
  | .jgt a b m => Sys2Proof.Machine.execJgt a b m s
  | .jlt a b m => Sys2Proof.Machine.execJlt a b m s
  | .jge a b m => Sys2Proof.Machine.execJge a b m s
  | .jle a b m => Sys2Proof.Machine.execJle a b m s
  | .halt => Sys2Proof.Machine.execHalt s
  | .syscall f => Sys2Proof.Machine.execSyscall f s
  | .invalid22 op => Sys2Proof.Machine.execInvalid22 op s
  | .invalid24 op => Sys2Proof.Machine.execInvalid24 op s

end Sys2Proof.Machine
end

