-- ==== Sys2Proof/Machine/Loop.lean ====
section
/-! DEFINITION. The execution loop (spec/40_execution_loop.md R73): what one step does in each run state, and where
it fetches. -/

namespace Sys2Proof.Machine

/-- A step of a running core: the exhaustion test (R74), the fetch (R75), the decoding, which sees the halt literal
first (R76), and the handler with its increment (R77, R78). -/
def runningStep (s : State) : Host.Outcome State Fault Refusal :=
  if s.exhausted then .next (s.halt .pcExhausted) else exec (decode s.fetchWord) s

/-- One pass of the loop: a `halted` or `fatal` state has no step (R79). -/
def loopStep (s : State) : Host.Outcome State Fault Refusal :=
  match s.run with
  | .running => runningStep s
  | .halted c => .fault (.noStepHalted c)
  | .fatal r => .fault (.noStepFatal r)

/-- The state with a word put where the next step fetches: at `pc`, or at 64 with `pc` set there when `pc` is past
the memory, and `running`, since no other run state fetches (R79). It stands for the loader (log 8). -/
def State.placeFetchWord (s : State) (w : Word) : State :=
  let pc := if s.exhausted then resetPc else s.pc
  { s with pc := pc, run := .running, mem := Memory.write s.mem (pc.setWidth 8) w }

end Sys2Proof.Machine
end

