-- ==== Sys2Proof/Machine/Step.lean ====
section
/-! DEFINITION. The step of the machine and the host's way to place one instruction word. -/

namespace Sys2Proof.Machine

/-- One step (R65, R73): one pass of the execution loop. -/
def step (s : State) : Host.Outcome State Fault Refusal := loopStep s

/-- The state whose next step fetches and runs the table word `w` (log 8). -/
def State.withFetchWord (s : State) (nbits w : Nat) : State := s.placeFetchWord (tableWord nbits w)

end Sys2Proof.Machine
end

