-- ==== Sys2Proof/Machine/Assembler.lean ====
section
/-! DEFINITION. The assembler syntax of the spec (spec/30_encoding.md R63) and its pseudo-instructions (R64), on
lines of text and on parsed lines. It has no effect on the machine (D20). -/

namespace Sys2Proof.Machine

/-- The mnemonics of R63 and the pseudo-instructions of R64. -/
inductive Mnemonic where
  | mov | and | or | not | add | sub | mul | div | mfhi | mflo | li | lw | si | sw
  | j | je | jne | jgt | jlt | jge | jle | syscall
  | halt | nop | word
  deriving DecidableEq, Repr

/-- An operand as written: a register number or a number (R63). -/
inductive AsmOperand where
  | reg (n : Nat)
  | num (n : Nat)
  deriving DecidableEq, Repr

/-- One line: a mnemonic, then its operands in field order (R63). -/
structure AsmLine where
  mnemonic : Mnemonic
  operands : List AsmOperand
  deriving DecidableEq, Repr

/-- A value that must fit its field: the assembler refuses one that does not, it never masks (R63). -/
def fitField (k n : Nat) : Option (BitVec k) := if n < 2 ^ k then some (BitVec.ofNat k n) else none

/-- A register operand `r0` to `r7` (R63). -/
def fitReg (n : Nat) : Option Reg := (fitField 3 n).map Reg.ofField

/-- Two registers: `mov`, `not`, `mul`, `div`. -/
def asmRR (mk : Reg → Reg → Instr) : List AsmOperand → Option Instr
  | [.reg a, .reg b] => (fitReg a).bind fun a => (fitReg b).map fun b => mk a b
  | _ => none

/-- Three registers: `and`, `or`, `add`, `sub`. -/
def asmRRR (mk : Reg → Reg → Reg → Instr) : List AsmOperand → Option Instr
  | [.reg a, .reg b, .reg c] =>
    (fitReg a).bind fun a => (fitReg b).bind fun b => (fitReg c).map fun c => mk a b c
  | _ => none

/-- One register: `mfhi`, `mflo`. -/
def asmR (mk : Reg → Instr) : List AsmOperand → Option Instr
  | [.reg a] => (fitReg a).map mk
  | _ => none

/-- Two registers and an address: the conditional branches. -/
def asmRRM (mk : Reg → Reg → Addr → Instr) : List AsmOperand → Option Instr
  | [.reg a, .reg b, .num m] =>
    (fitReg a).bind fun a => (fitReg b).bind fun b => (fitField 8 m).map fun m => mk a b m
  | _ => none

/-- The instruction of a line that is neither a pseudo-instruction nor `.word` (R63). -/
def asmInstr (l : AsmLine) : Option Instr :=
  match l.mnemonic, l.operands with
  | .mov, ops => asmRR .mov ops
  | .and, ops => asmRRR .and ops
  | .or, ops => asmRRR .or ops
  | .not, ops => asmRR .not ops
  | .add, ops => asmRRR .add ops
  | .sub, ops => asmRRR .sub ops
  | .mul, ops => asmRR .mul ops
  | .div, ops => asmRR .div ops
  | .mfhi, ops => asmR .mfhi ops
  | .mflo, ops => asmR .mflo ops
  | .li, [.reg d, .num n] => (fitReg d).bind fun d => (fitField 24 n).map fun n => .li d n
  | .lw, [.num m, .reg d] => (fitField 8 m).bind fun m => (fitReg d).map fun d => .lw m d
  | .si, [.num m, .num n] => (fitField 8 m).bind fun m => (fitField 19 n).map fun n => .si m n
  | .sw, [.reg a, .num m] => (fitReg a).bind fun a => (fitField 8 m).map fun m => .sw a m
  | .j, [.num m] => (fitField 8 m).map .j
  | .je, ops => asmRRM .je ops
  | .jne, ops => asmRRM .jne ops
  | .jgt, ops => asmRRM .jgt ops
  | .jlt, ops => asmRRM .jlt ops
  | .jge, ops => asmRRM .jge ops
  | .jle, ops => asmRRM .jle ops
  | .syscall, [.num f] => (fitField 3 f).map .syscall
  | _, _ => none

/-- The word of a line (R63, R64); none for a line that is not of the syntax. A jump's address is encoded as
written. -/
def assemble (l : AsmLine) : Option Word :=
  match l.mnemonic, l.operands with
  | .halt, [] => some haltWord
  | .nop, [] => some (encode (.mov 0 0))
  | .word, [.num v] => fitField 32 v
  | _, _ => (asmInstr l).map encode

/-- The line that writes an instruction; an illegal word is written as data. -/
def disassemble : Instr → AsmLine
  | .mov a b => ⟨.mov, [.reg a, .reg b]⟩
  | .and a b c => ⟨.and, [.reg a, .reg b, .reg c]⟩
  | .or a b c => ⟨.or, [.reg a, .reg b, .reg c]⟩
  | .not a b => ⟨.not, [.reg a, .reg b]⟩
  | .add a b c => ⟨.add, [.reg a, .reg b, .reg c]⟩
  | .sub a b c => ⟨.sub, [.reg a, .reg b, .reg c]⟩
  | .mul a b => ⟨.mul, [.reg a, .reg b]⟩
  | .div a b => ⟨.div, [.reg a, .reg b]⟩
  | .mfhi a => ⟨.mfhi, [.reg a]⟩
  | .mflo a => ⟨.mflo, [.reg a]⟩
  | .li d n => ⟨.li, [.reg d, .num n.toNat]⟩
  | .lw m d => ⟨.lw, [.num m.toNat, .reg d]⟩
  | .si m n => ⟨.si, [.num m.toNat, .num n.toNat]⟩
  | .sw a m => ⟨.sw, [.reg a, .num m.toNat]⟩
  | .j m => ⟨.j, [.num m.toNat]⟩
  | .je a b m => ⟨.je, [.reg a, .reg b, .num m.toNat]⟩
  | .jne a b m => ⟨.jne, [.reg a, .reg b, .num m.toNat]⟩
  | .jgt a b m => ⟨.jgt, [.reg a, .reg b, .num m.toNat]⟩
  | .jlt a b m => ⟨.jlt, [.reg a, .reg b, .num m.toNat]⟩
  | .jge a b m => ⟨.jge, [.reg a, .reg b, .num m.toNat]⟩
  | .jle a b m => ⟨.jle, [.reg a, .reg b, .num m.toNat]⟩
  | .halt => ⟨.halt, []⟩
  | .syscall f => ⟨.syscall, [.num f.toNat]⟩
  | .invalid22 op => ⟨.word, [.num (encode (.invalid22 op)).toNat]⟩
  | .invalid24 op => ⟨.word, [.num (encode (.invalid24 op)).toNat]⟩

/-! ### A line of text (R63; log 17 for blanks) -/

/-- The spelling of each mnemonic, in lower case (R63, R64). -/
def mnemonicNames : List (List Char × Mnemonic) :=
  [
    (['m', 'o', 'v'], .mov),
    (['a', 'n', 'd'], .and),
    (['o', 'r'], .or),
    (['n', 'o', 't'], .not),
    (['a', 'd', 'd'], .add),
    (['s', 'u', 'b'], .sub),
    (['m', 'u', 'l'], .mul),
    (['d', 'i', 'v'], .div),
    (['m', 'f', 'h', 'i'], .mfhi)] ++ [
    (['m', 'f', 'l', 'o'], .mflo),
    (['l', 'i'], .li),
    (['l', 'w'], .lw),
    (['s', 'i'], .si),
    (['s', 'w'], .sw),
    (['j'], .j),
    (['j', 'e'], .je),
    (['j', 'n', 'e'], .jne),
    (['j', 'g', 't'], .jgt)] ++ [
    (['j', 'l', 't'], .jlt),
    (['j', 'g', 'e'], .jge),
    (['j', 'l', 'e'], .jle),
    (['s', 'y', 's', 'c', 'a', 'l', 'l'], .syscall),
    (['h', 'a', 'l', 't'], .halt),
    (['n', 'o', 'p'], .nop),
    (['.', 'w', 'o', 'r', 'd'], .word)]

/-- A blank between the parts of a line. -/
def isBlank (c : Char) : Bool := c == ' ' || c == '\t'

/-- The characters without the blanks at either end. -/
def trimBlanks (cs : List Char) : List Char :=
  ((cs.dropWhile isBlank).reverse.dropWhile isBlank).reverse

/-- The pieces between commas. -/
def splitCommas : List Char → List (List Char)
  | [] => [[]]
  | c :: cs =>
    match splitCommas cs with
    | [] => [[c]]
    | p :: ps => if c = ',' then [] :: p :: ps else (c :: p) :: ps

/-- The value of a digit in a base of 10 or 16. -/
def digitIn (base : Nat) (c : Char) : Option Nat :=
  let n := c.toNat
  let v :=
    if 48 ≤ n ∧ n ≤ 57 then n - 48
    else if 97 ≤ n ∧ n ≤ 102 then n - 87
    else if 65 ≤ n ∧ n ≤ 70 then n - 55
    else base
  if v < base then some v else none

/-- A non-empty list of digits as a number. -/
def numberIn (base : Nat) (cs : List Char) : Option Nat :=
  if cs = [] then none
  else cs.foldl (fun acc c => acc.bind fun n => (digitIn base c).map fun d => base * n + d) (some 0)

/-- A number: decimal, or `0x` and hexadecimal digits (R63). -/
def parseNumber : List Char → Option Nat
  | '0' :: 'x' :: cs => numberIn 16 cs
  | cs => numberIn 10 cs

/-- An operand: `r` and one digit, or a number (R63). -/
def parseOperand : List Char → Option AsmOperand
  | ['r', c] => (digitIn 10 c).map .reg
  | cs => (parseNumber cs).map .num

/-- The operands of the pieces between the commas, in order. -/
def parseOperands : List (List Char) → Option (List AsmOperand)
  | [] => some []
  | p :: ps => (parseOperand (trimBlanks p)).bind fun o => (parseOperands ps).map (o :: ·)

/-- A line of text: a mnemonic, then its operands separated by commas (R63). -/
def parseLine (line : List Char) : Option AsmLine :=
  let cs := trimBlanks line
  let rest := trimBlanks (cs.dropWhile fun c => !isBlank c)
  ((mnemonicNames.find? fun r => r.1 == cs.takeWhile fun c => !isBlank c).map (·.2)).bind fun m =>
    (if rest = [] then some [] else parseOperands (splitCommas rest)).map fun ops => ⟨m, ops⟩

/-- The word of a line of text (R63, R64). -/
def assembleText (line : List Char) : Option Word := (parseLine line).bind assemble

end Sys2Proof.Machine
end

