-- ==== Sys2Proof/Machine/Datapath.lean ====
section
/-! DEFINITION. The core as its eight sub-blocks and their ports (spec/40_execution_loop.md R66 to R72, decision D2):
a second description of the step, by control words instead of handlers. That it agrees with `step` is a statement. -/

namespace Sys2Proof.Machine

/-- The outputs of the fetch_unit (R67). `ir` is read only when `exhausted` is false. -/
structure FetchOut where
  exhausted : Bool
  ir : Option Word
  haltLit : Bool
  issue : Bool
  deriving DecidableEq, Repr

/-- fetch_unit (R67). -/
def fetchUnit (s : State) : FetchOut :=
  let ex := decide (memWords ≤ s.pc.toNat)
  let ir := if ex then none else some (s.memRead (s.pc.setWidth 8))
  let hl := ir == some haltWord
  { exhausted := ex, ir := ir, haltLit := hl, issue := s.run == .running && !ex && !hl }

/-- The outputs of the instruction_decoder (R68). -/
structure DecoderOut where
  opcode : BitVec 5
  ra : BitVec 3
  rb : BitVec 3
  rc : BitVec 3
  rl : BitVec 3
  m1 : Addr
  m2 : Addr
  m3 : Addr
  imm24 : BitVec 24
  imm19 : BitVec 19
  deriving DecidableEq, Repr

/-- instruction_decoder (R68): every output, whatever the opcode. -/
def instructionDecoder (ir : Word) : DecoderOut where
  opcode := fieldOpcode ir
  ra := fieldRa ir
  rb := fieldRb ir
  rc := fieldRc ir
  rl := fieldRl ir
  m1 := fieldM1 ir
  m2 := fieldM2 ir
  m3 := fieldM3 ir
  imm24 := fieldImm24 ir
  imm19 := fieldImm19 ir

/-- The operations of the alu (R70). -/
inductive AluOp where
  | pass | and | or | not | add | sub | mul | divu | eq | ne | gtu | ltu | geu | leu
  deriving DecidableEq, Repr

/-- The outputs of the alu (R70). An output that an operation does not name is 0; no control word uses it. -/
structure AluOut where
  word : Word := 0
  product : BitVec 64 := 0
  quotient : Word := 0
  remainder : Word := 0
  dz : Bool := false
  cond : Bool := false
  deriving DecidableEq, Repr

/-- alu (R70). -/
def alu (op : AluOp) (a b : Word) : AluOut :=
  match op with
  | .pass => { word := aluPass a }
  | .and => { word := aluAnd a b }
  | .or => { word := aluOr a b }
  | .not => { word := aluNot a }
  | .add => { word := aluAdd a b }
  | .sub => { word := aluSub a b }
  | .mul => { product := aluMul a b }
  | .divu => { quotient := aluQuotient a b, remainder := aluRemainder a b, dz := divByZero b }
  | .eq => { cond := condEq a b }
  | .ne => { cond := condNe a b }
  | .gtu => { cond := condGtu a b }
  | .ltu => { cond := condLtu a b }
  | .geu => { cond := condGeu a b }
  | .leu => { cond := condLeu a b }

/-- The address of a write through port W (R71). -/
inductive WAddr where
  | ra | rb | rc | rl
  deriving DecidableEq, Repr

/-- The source of a write through port W (R71). -/
inductive WSource where
  | alu | hi | lo | imm24 | mem
  deriving DecidableEq, Repr

/-- The use of the D port (R42, R71). -/
inductive DPort where
  | readM1 | writeM1Imm19 | writeM2PortA
  deriving DecidableEq, Repr

/-- The HI/LO write (R71): the product split, or remainder and quotient unless `dz`. -/
inductive HiLoSource where
  | product | divide
  deriving DecidableEq, Repr

/-- The load of `pc` (R71): always from `m1`, or from `m3` when the alu's condition holds. -/
inductive PcLoad where
  | always | onCond
  deriving DecidableEq, Repr

/-- A control word of the table of R71; `none` and `false` are its `-`. An inactive read port reads its field and
nothing uses it. -/
structure ControlWord where
  portAIsR7 : Bool := false
  aluOp : Option AluOp := none
  wWrite : Option (WAddr × WSource) := none
  hiLo : Option HiLoSource := none
  dPort : Option DPort := none
  pcLoad : Option PcLoad := none
  syscall : Bool := false
  deriving DecidableEq, Repr

/-- opcode_dispatch (R71): the control word of an opcode, none for 22 to 31 (`invalid_opcode`). -/
def opcodeDispatch (opcode : BitVec 5) : Option ControlWord :=
  match opcode.toNat with
  | 0 => some { aluOp := some .pass, wWrite := some (.rb, .alu) }
  | 1 => some { aluOp := some .and, wWrite := some (.rc, .alu) }
  | 2 => some { aluOp := some .or, wWrite := some (.rc, .alu) }
  | 3 => some { aluOp := some .not, wWrite := some (.rb, .alu) }
  | 4 => some { aluOp := some .add, wWrite := some (.rc, .alu) }
  | 5 => some { aluOp := some .sub, wWrite := some (.rc, .alu) }
  | 6 => some { aluOp := some .mul, hiLo := some .product }
  | 7 => some { aluOp := some .divu, hiLo := some .divide }
  | 8 => some { wWrite := some (.ra, .hi) }
  | 9 => some { wWrite := some (.ra, .lo) }
  | 10 => some { wWrite := some (.ra, .imm24) }
  | 11 => some { wWrite := some (.rl, .mem), dPort := some .readM1 }
  | 12 => some { dPort := some .writeM1Imm19 }
  | 13 => some { dPort := some .writeM2PortA }
  | 14 => some { pcLoad := some .always }
  | 15 => some { aluOp := some .eq, pcLoad := some .onCond }
  | 16 => some { aluOp := some .ne, pcLoad := some .onCond }
  | 17 => some { aluOp := some .gtu, pcLoad := some .onCond }
  | 18 => some { aluOp := some .ltu, pcLoad := some .onCond }
  | 19 => some { aluOp := some .geu, pcLoad := some .onCond }
  | 20 => some { aluOp := some .leu, pcLoad := some .onCond }
  | 21 => some { portAIsR7 := true, syscall := true }
  | _ => none

/-- program_counter (R66): the next `pc` of a step. -/
def pcNext (stepRetire pcLoad : Bool) (pcTarget : Addr) (pcQ : Word) : Word :=
  if stepRetire then (if pcLoad then pcTarget.setWidth 32 else pcQ) + 1 else pcQ

/-- The value port W writes, if it writes (R69, R71). -/
def wValue (c : ControlWord) (d : DecoderOut) (out : AluOut) (s : State) : Option (Reg × Word) :=
  c.wWrite.map fun (addr, source) =>
    (Reg.ofField (match addr with
      | .ra => d.ra
      | .rb => d.rb
      | .rc => d.rc
      | .rl => d.rl),
     match source with
      | .alu => out.word
      | .hi => s.hi
      | .lo => s.lo
      | .imm24 => immLi d.imm24
      | .mem => s.memRead (effAddr d.m1))

/-- The memory after the D port (R42, R71). -/
def dPortMem (c : ControlWord) (d : DecoderOut) (aData : Word) (s : State) : Memory :=
  match c.dPort with
  | some .writeM1Imm19 => Memory.write s.mem (effAddr d.m1) (immSi d.imm19)
  | some .writeM2PortA => Memory.write s.mem (effAddr d.m2) aData
  | some .readM1 => s.mem
  | none => s.mem

/-- One instruction by its control word: every read sees the state at the start of the step, and the writes of the
register file, HI/LO, memory and `pc` commit together at its end (R65, R69). -/
def datapathIssue (c : ControlWord) (ir : Word) (s : State) : State :=
  let d := instructionDecoder ir
  if c.syscall then s.applyMux (syscallMux d.ra s)
  else
    let aData := s.reg (if c.portAIsR7 then r7 else Reg.ofField d.ra)
    let bData := s.reg (Reg.ofField d.rb)
    let out := match c.aluOp with
      | some op => alu op aData bData
      | none => {}
    if c.hiLo == some .divide && out.dz then { s with run := .fatal (.divideByZero ir) }
    else
      { s with
        gpr := match wValue c d out s with
          | some (r, v) => s.gpr.set r.val v
          | none => s.gpr
        hi := match c.hiLo with
          | some .product => productHi out.product
          | some .divide => out.remainder
          | none => s.hi
        lo := match c.hiLo with
          | some .product => productLo out.product
          | some .divide => out.quotient
          | none => s.lo
        mem := dPortMem c d aData s
        pc := match c.pcLoad with
          | some .always => pcNext true true d.m1 s.pc
          | some .onCond => pcNext true out.cond d.m3 s.pc
          | none => pcNext true false d.m1 s.pc }

/-- One step of a running core by its sub-blocks (R66 to R73). -/
def datapathStep (s : State) : State :=
  let f := fetchUnit s
  match f.ir with
  | none => { s with run := .halted .pcExhausted }
  | some ir =>
    if f.haltLit then { s with run := .halted .haltLiteral }
    else match opcodeDispatch (fieldOpcode ir) with
      | none => { s with run := .fatal (.invalidOpcode (fieldOpcode ir)) }
      | some c => datapathIssue c ir s

end Sys2Proof.Machine
end

