-- ==== Sys2Proof/Machine/Launch.lean ====
section
/-! DEFINITION. Launch: the open parameters of spec/00_scope.md R7, the one core-visible effect of the loader
(spec/10_state.md R22) and the state at reset they give (spec/70_reset_and_hazards.md R141, R142). `State.reset`
is the launch of an empty image with the values of the log. -/

namespace Sys2Proof.Machine

/-- The launch parameter `input` (R7, R29): what the host will do to the console input, in order. It is no part of
State, which is plain data: State holds the input that has arrived and a finite list of what is to come. -/
inductive LaunchInput where
  /-- A finite input, done action by action as the core waits for it (log 6). -/
  | listed (events : List HostEvent)
  /-- A host that acts at any time and without bound (R29, R137): what it does before each step of the run. -/
  | fed (feed : Nat → List HostEvent)

/-- A finite sequence of code points, with or without an end-of-input mark (R29). -/
def LaunchInput.finite (cs : List Word) (ended : Bool) : LaunchInput :=
  .listed (.append cs :: if ended then [.endOfInput] else [])

/-- An unbounded sequence of code points (R29). DESIGN CHOICE (log 20): one more arrives before each step. When each
arrives makes no difference to what the core reads (Obligations.DeliveryCommutesWithSteps). -/
def LaunchInput.unbounded (c : Nat → Word) : LaunchInput := .fed fun n => [.append [c n]]

/-- What State holds of the input at launch. -/
def LaunchInput.coming : LaunchInput → List HostEvent
  | .listed events => events
  | .fed _ => []

/-- What the host does before step `n` of a run, beside the actions State holds. -/
def LaunchInput.before : LaunchInput → Nat → List HostEvent
  | .listed _, _ => []
  | .fed feed, n => feed n

/-- The launch parameters (R7). -/
structure Launch where
  /-- `init_gpr` (R15). -/
  gpr : Vector Word 8
  /-- `init_hi` (R17). -/
  hi : Word
  /-- `init_lo` (R17). -/
  lo : Word
  /-- The program image (R22). -/
  image : List Word
  /-- `init_mem` past the image: what the memory holds where the loader writes nothing (R22). -/
  background : Vector Word 256
  /-- `input` (R29). -/
  input : LaunchInput
  /-- `char_valid`, `strip_cr`, `image_byte_order` (R7). -/
  cfg : Config

/-- The memory at launch: the image from index 0 over the background (R22). -/
def Launch.initMem (p : Launch) : Memory :=
  Memory.writeFrom (Memory.writeFrom [] 0 p.background.toList) 0 p.image

/-- The state at reset (R141). An image of more than 256 words is a broken launch, outside every claim (R22, D6):
it gives no state. -/
def Launch.start (p : Launch) : Option State :=
  if p.image.length ≤ memWords then
    some {
      gpr := p.gpr
      hi := p.hi
      lo := p.lo
      pc := resetPc
      mem := p.initMem
      run := .running
      console := { out := [], inp := { arrived := [], ended := false, coming := p.input.coming } }
      cfg := p.cfg }
  else none

/-- The word the loader forms from four bytes of an image file (R37, D7). -/
def wordOfBytes (o : ByteOrder) (b0 b1 b2 b3 : Byte) : Word :=
  match o with
  | .little => b3 ++ b2 ++ b1 ++ b0
  | .big => b0 ++ b1 ++ b2 ++ b3

/-- The image of a file of bytes (R22, R37). A file that is no whole number of words is no image. -/
def imageOfBytes (o : ByteOrder) : List Byte → Option (List Word)
  | [] => some []
  | b0 :: b1 :: b2 :: b3 :: bs => (imageOfBytes o bs).map (wordOfBytes o b0 b1 b2 b3 :: ·)
  | _ => none

/-- The launch whose image is read from a file of bytes, in the byte order the parameter names (R7). -/
def Launch.withFile (p : Launch) (bytes : List Byte) : Option Launch :=
  (imageOfBytes p.cfg.imageByteOrder bytes).map fun ws => { p with image := ws }

end Sys2Proof.Machine
end

