-- ==== Sys2Proof/Machine/Run.lean ====
section
/-! DEFINITION. A run (spec/40_execution_loop.md R82): the steps from the state a launch gives, with what the host
does to the input before each of them (spec/60_exceptions.md R137). -/

namespace Sys2Proof.Machine

/-- Host actions one after another (R137). -/
def State.deliverAll (s : State) (es : List HostEvent) : State := es.foldl State.deliver s

/-- One turn of a run: what the host does, then the step. A run that has stopped stays stopped. -/
def runTurn (es : List HostEvent) (o : Host.Outcome State Fault Refusal) : Host.Outcome State Fault Refusal :=
  match o with
  | .next s => step (s.deliverAll es)
  | .fault r => .fault r
  | .refused r => .refused r

/-- The run of a launch after `n` steps (R82), on any input, finite or unbounded (R29); none for a broken launch
(R22). There is no step limit. -/
def Launch.run (p : Launch) : Nat → Option (Host.Outcome State Fault Refusal)
  | 0 => p.start.map .next
  | n + 1 => (p.run n).map (runTurn (p.input.before n))

/-- The run ends after `n` steps in the state `s` (R82). -/
def Launch.EndsIn (p : Launch) (n : Nat) (s : State) : Prop := p.run n = some (.next s) ∧ s.run ≠ .running

end Sys2Proof.Machine
end

