-- ==== Sys2Proof/Safety.lean ====
section
/-! DEFINITION. The terms the statements use: what is kept (frames), the invariant of a running machine, what a run
that has ended looks like, and what the host sees of it. -/

namespace Sys2Proof.Machine

/-! ### The bits of a word (spec/30_encoding.md R53), written as bit slices, not by the shifts of the decoder -/

/-- `w[31:27]` as a number (R51). -/
def opcodeBits (w : Word) : Nat := (w.extractLsb' 27 5).toNat

/-- The register named by the three bits `w[lo+2:lo]`. -/
def regBits (w : Word) (lo : Nat) : Reg := (w.extractLsb' lo 3).toFin

/-- The address in the eight bits `w[lo+7:lo]`. -/
def addrBits (w : Word) (lo : Nat) : Addr := w.extractLsb' lo 8

/-! ### Frames (spec/40_execution_loop.md R81) -/

/-- Every general register is as before. -/
def SameRegs (s t : State) : Prop := ∀ r : Reg, t.reg r = s.reg r

/-- Every general register but `d` is as before. -/
def SameRegsBut (d : Reg) (s t : State) : Prop := ∀ r : Reg, r ≠ d → t.reg r = s.reg r

/-- HI and LO are as before. -/
def SameHiLo (s t : State) : Prop := t.hi = s.hi ∧ t.lo = s.lo

/-- Every word of memory reads as before. -/
def SameMemory (s t : State) : Prop := ∀ a : Addr, t.memRead a = s.memRead a

/-- Every word of memory but the one at `b` reads as before. -/
def SameMemoryBut (b : Addr) (s t : State) : Prop := ∀ a : Addr, a ≠ b → t.memRead a = s.memRead a

/-- The console, the run state and the fixed parameters are as before. -/
def SameOutside (s t : State) : Prop := t.console = s.console ∧ t.run = s.run ∧ t.cfg = s.cfg

/-- Only register `d` changes, and `pc` advances by one. -/
def OnlyRegChanges (d : Reg) (s t : State) : Prop :=
  SameRegsBut d s t ∧ SameHiLo s t ∧ SameMemory s t ∧ SameOutside s t ∧ t.pc = s.pc + 1

/-- Only HI and LO change, and `pc` advances by one. -/
def OnlyHiLoChange (s t : State) : Prop :=
  SameRegs s t ∧ SameMemory s t ∧ SameOutside s t ∧ t.pc = s.pc + 1

/-- Only the word at `b` changes, and `pc` advances by one. -/
def OnlyWordChanges (b : Addr) (s t : State) : Prop :=
  SameRegs s t ∧ SameHiLo s t ∧ SameMemoryBut b s t ∧ SameOutside s t ∧ t.pc = s.pc + 1

/-- Only `pc` changes. -/
def OnlyPcChanges (s t : State) : Prop :=
  SameRegs s t ∧ SameHiLo s t ∧ SameMemory s t ∧ SameOutside s t

/-- Only the run state changes, `pc` included in what is kept. -/
def OnlyRunChanges (s t : State) : Prop :=
  SameRegs s t ∧ SameHiLo s t ∧ SameMemory s t ∧ t.console = s.console ∧ t.cfg = s.cfg ∧ t.pc = s.pc

/-- Registers, HI, LO, memory and the fixed parameters are as before; the console, `pc` and the run state are not
spoken of. -/
def SameCore (s t : State) : Prop := SameRegs s t ∧ SameHiLo s t ∧ SameMemory s t ∧ t.cfg = s.cfg

/-- The registers an instruction may write (R71, R123, R124). -/
def mayWriteReg (r : Reg) : Instr → Bool
  | .mov _ d | .not _ d | .and _ _ d | .or _ _ d | .add _ _ d | .sub _ _ d => r == d
  | .mfhi d | .mflo d | .li d _ | .lw _ d => r == d
  | .syscall f => r == r7 && (f == 4 || f == 5)
  | .mul .. | .div .. | .si .. | .sw .. | .j .. | .je .. | .jne .. | .jgt .. | .jlt .. | .jge .. | .jle ..
  | .halt | .invalid22 _ | .invalid24 _ => false

/-! ### Waiting for input (R80) -/

/-- The next step of this state waits for console input. -/
def State.waits (s : State) : Bool :=
  s.run == .running && !s.exhausted &&
    (match decode s.fetchWord with
      | .syscall f => (syscallMux f s).hold
      | _ => false)

/-! ### The invariant of the machine -/

/-- Everything the host delivers is a code point (D11). -/
def InputStream.Ok (i : InputStream) : Prop :=
  (∀ c ∈ i.arrived, c.toNat ≤ maxCodePoint.toNat) ∧
    ∀ cs, HostEvent.append cs ∈ i.coming → ∀ c ∈ cs, c.toNat ≤ maxCodePoint.toNat

/-- What has been written is a valid character or a decimal digit (R114, R120). -/
def State.OutputOk (s : State) : Prop := ∀ c ∈ s.console.out, charValid s.cfg c = true ∨ isDigit c = true

/-- The invariant: memory is in its canonical form, `pc` is in 1..256 (R20, R41), the input holds code points and the
output valid characters. -/
structure State.Ok (s : State) : Prop where
  mem : Memory.wf s.mem = true
  pcLow : 1 ≤ s.pc.toNat
  pcHigh : s.pc.toNat ≤ memWords
  inp : s.console.inp.Ok
  out : s.OutputOk

/-! ### How a run ends (R127 to R132) -/

/-- Syscall 3 in state `s` comes to the invalid word `v` (R122): the words from index r7 up to it are the `written`
ones, each valid and not 0. -/
def StringFailsAt (s : State) (written : List Word) (v : Word) : Prop :=
  let word := fun i => s.memRead (BitVec.ofNat 8 ((s.reg r7).toNat + i))
  (s.reg r7).toNat + written.length < memWords ∧ written = (List.range written.length).map word ∧
    (∀ c ∈ written, c ≠ 0 ∧ charValid s.cfg c = true) ∧
    v = word written.length ∧ v ≠ 0 ∧ charValid s.cfg v = false

/-- The cause R127 gives for a fatal reason that took `s` to `t`. In `t`, `pc` is still at the instruction that raised
it, and the registers and memory it read hold what they held (R128); the input it read is that of `s`. -/
def FatalCause (s t : State) : FatalReason → Prop
  | .invalidOpcode op => fieldOpcode t.fetchWord = op ∧ 22 ≤ op.toNat
  | .invalidSyscall c => c = 7 ∧ decode t.fetchWord = .syscall 7
  | .divideByZero w => t.fetchWord = w ∧ ∃ l r, decode w = .div l r ∧ t.reg r = 0
  | .parseError l =>
    decode t.fetchWord = .syscall 4 ∧ parseUint l = none ∧
      s.console.inp.readLine s.cfg.stripCr = .got l t.console.inp.arrived
  | .invalidCharacter v =>
    (decode t.fetchWord = .syscall 2 ∧ v = t.reg r7 ∧ charValid t.cfg v = false) ∨
      (decode t.fetchWord = .syscall 3 ∧
        ∃ written, StringFailsAt t written v ∧ t.console.out = s.console.out ++ written)
  | .inputExhausted =>
    decode t.fetchWord = .syscall 5 ∧ s.console.inp.arrived = [] ∧ s.console.inp.ended = true

/-- A step from `s` that ends the run in `t` has the cause that R127 or R129 gives for that end. -/
def EndIsPrecise (s t : State) : Prop :=
  match t.run with
  | .running => True
  | .halted .haltLiteral => t.exhausted = false ∧ t.fetchWord = haltWord
  | .halted .pcExhausted => t.exhausted = true
  | .fatal r => t.exhausted = false ∧ FatalCause s t r

/-- What the host sees of a run state (R132, R137): the two halt causes alike. -/
inductive HostView where
  | running
  | terminated
  | failed
  deriving DecidableEq, Repr

/-- R132: normal termination on `halted`, failure on `fatal`. -/
def RunState.hostView : RunState → HostView
  | .running => .running
  | .halted _ => .terminated
  | .fatal _ => .failed

/-- A safe run: it has not failed. -/
def State.safe (s : State) : Bool := s.run.hostView != .failed

end Sys2Proof.Machine
end

