-- ==== Sys2Proof/Certificates/Slice0/Obligations.lean ====
section
/-! DEFINITION. The statements for the provers. Each docstring names the rules of spec/ it formalises, or the
sections it rests on. `t` is always the state after. -/

open Sys2Proof Sys2Proof.Machine

/-! ### Reset and launch -/

/-- R19: at reset `pc` is 64, whatever is launched. -/
def Obligations.ResetStartsAt64 : Prop :=
  State.reset.pc = 64 ∧ ∀ (p : Launch) (s : State), p.start = some s → s.pc = 64

/-- R141: the reset table, for every value of the launch parameters. A launch whose image has at most 256 words
starts in a state whose items are the table's; a longer image gives no state (R22, D6). -/
def Obligations.LaunchGivesTheResetTable : Prop :=
  ∀ p : Launch,
    (p.image.length ≤ 256 →
      ∃ s, p.start = some s ∧
        (∀ r : Reg, s.reg r = p.gpr[r.val]) ∧ s.hi = p.hi ∧ s.lo = p.lo ∧ s.pc = 64 ∧ s.run = .running ∧
        s.console.out = [] ∧ s.console.inp = { arrived := [], ended := false, coming := p.input.coming } ∧
        s.cfg = p.cfg ∧
        ∀ a : Addr, s.memRead a =
          if a.toNat < p.image.length then p.image.getD a.toNat 0 else p.background.toList.getD a.toNat 0) ∧
    (256 < p.image.length → p.start = none)

/-! ### Encoding and decoding -/

/-- A few words written out from the encodings of R53 and R56, one or more of each family, decode to their
instructions (the examples of the rules of 41_ to 45_). -/
def Obligations.SpecWordsDecode : Prop :=
  decode 0x02E00000 = .mov 2 7 ∧ decode 0x094C0000 = .and 1 2 3 ∧ decode 0x2B940000 = .sub 3 4 5 ∧
  decode 0x30200000 = .mul 0 1 ∧ decode 0x3A600000 = .div 2 3 ∧ decode 0x45000000 = .mfhi 5 ∧
  decode 0x57FFFFFF = .li 7 0xFFFFFF ∧ decode 0x5E430000 = .lw 200 3 ∧ decode 0x6327FFFF = .si 100 0x7FFFF ∧
  decode 0x6F090000 = .sw 7 9 ∧ decode 0x70500000 = .j 10 ∧ decode 0xA143C000 = .jle 1 2 30 ∧
  decode 0xA8000000 = .halt ∧ decode 0xA8000001 = .syscall 0 ∧ decode 0xAF000000 = .syscall 7 ∧
  decode 0xB0000000 = .invalid22 22 ∧ decode 0xFFFFFFFF = .invalid24 31

/-- Decode and encode agree: every well-formed instruction, with every operand at every value of its field, is what
its word decodes to; the one exception is `syscall 0`, whose word with every unused bit 0 is the halt literal (R58,
R62). -/
def Obligations.DecodeOfEncodeIsTheInstruction : Prop :=
  ∀ i : Instr, WellFormed i → decode (encode i) = if i = .syscall 0 then .halt else i

/-- R60: the decoder is total, every word is the halt literal, an instruction of opcode 0 to 21 or an illegal word,
and what it gives is a well-formed instruction with the word's opcode. -/
def Obligations.EveryWordDecodesByItsOpcode : Prop :=
  ∀ w : Word,
    WellFormed (decode w) ∧ (decode w).opcode = fieldOpcode w ∧
    (decode w = .halt ↔ w = 0xA8000000) ∧
    ((∃ f, decode w = .syscall f) ↔ fieldOpcode w = 21 ∧ w ≠ 0xA8000000) ∧
    ((∃ op, decode w = .invalid22 op ∨ decode w = .invalid24 op) ↔ 22 ≤ (fieldOpcode w).toNat)

/-- R68: the outputs of the instruction_decoder are the bit slices of its table, whatever the opcode. -/
def Obligations.DecoderOutputsAreTheBitFields : Prop :=
  ∀ ir : Word,
    let d := instructionDecoder ir
    d.opcode = ir.extractLsb' 27 5 ∧ d.ra = ir.extractLsb' 24 3 ∧ d.rb = ir.extractLsb' 21 3 ∧
    d.rc = ir.extractLsb' 18 3 ∧ d.rl = ir.extractLsb' 16 3 ∧ d.m1 = ir.extractLsb' 19 8 ∧
    d.m2 = ir.extractLsb' 16 8 ∧ d.m3 = ir.extractLsb' 13 8 ∧ d.imm24 = ir.extractLsb' 0 24 ∧
    d.imm19 = ir.extractLsb' 0 19

/-- R54: two words that agree on the bits their opcode's handler reads decode alike, unless one is the halt
literal. -/
def Obligations.UnusedBitsAreIgnored : Prop :=
  ∀ w w' : Word, w ≠ 0xA8000000 → w' ≠ 0xA8000000 →
    (w &&& usedMask (fieldOpcode w).toNat = w' &&& usedMask (fieldOpcode w).toNat) → decode w = decode w'

/-- R147: every word below 0x00200000, every code point included, runs as `mov r0, r0`, which changes nothing but
`pc` (R61). -/
def Obligations.SmallWordsRunAsNoOps : Prop :=
  ∀ (w : Word) (s : State), w.toNat < 0x00200000 →
    decode w = .mov 0 0 ∧
      ∃ t, exec (decode w) s = .next t ∧ OnlyPcChanges s t ∧ t.pc = s.pc + 1

/-- Assembling what an instruction disassembles to gives its word (R62, R63, R64). -/
def Obligations.AssembleUndoesDisassemble : Prop :=
  ∀ i : Instr, assemble (disassemble i) = some (encode i)

/-! ### The step -/

/-- R73 with R75 and R77: a running core whose `pc` is below 256 runs the instruction its word decodes to. -/
def Obligations.StepRunsTheDecodedInstruction : Prop :=
  ∀ s : State, s.run = .running → s.pc.toNat < 256 →
    step s = exec (decode (s.memRead (s.pc.setWidth 8))) s

/-- R74: `pc` of 256 or more halts the run and changes nothing else. -/
def Obligations.PcExhaustionHalts : Prop :=
  ∀ s : State, s.run = .running → 256 ≤ s.pc.toNat →
    ∃ t, step s = .next t ∧ t.run = .halted .pcExhausted ∧ OnlyRunChanges s t

/-- R76, R58: the word 0xA8000000, and no other, is the halt literal; it halts the run, `pc` still at it, and changes
nothing else. Every other word of opcode 21 and func 0 is an ordinary `syscall 0`. -/
def Obligations.HaltLiteralHalts : Prop :=
  (∀ w : Word, decode w = .halt ↔ w = 0xA8000000) ∧
  (∀ w : Word, opcodeBits w = 21 → w.extractLsb' 24 3 = 0 → w ≠ 0xA8000000 → decode w = .syscall 0) ∧
  (∀ s : State, ∃ t, exec .halt s = .next t ∧ t.run = .halted .haltLiteral ∧ OnlyRunChanges s t) ∧
  ∀ s : State, s.run = .running → s.pc.toNat < 256 → s.memRead (s.pc.setWidth 8) = 0xA8000000 →
    step s = exec .halt s

/-- R57: an opcode of 22 to 31 is fatal, records the opcode and changes nothing else. -/
def Obligations.IllegalOpcodeIsFatal : Prop :=
  (∀ (s : State) (op : BitVec 5), ∃ t, exec (.invalid22 op) s = .next t ∧
    t.run = .fatal (.invalidOpcode op) ∧ OnlyRunChanges s t) ∧
  (∀ (s : State) (op : BitVec 5), ∃ t, exec (.invalid24 op) s = .next t ∧
    t.run = .fatal (.invalidOpcode op) ∧ OnlyRunChanges s t) ∧
  ∀ s : State, s.run = .running → s.pc.toNat < 256 → 0xB0000000 ≤ (s.memRead (s.pc.setWidth 8)).toNat →
    ∃ t, step s = .next t ∧ t.run = .fatal (.invalidOpcode (fieldOpcode (s.memRead (s.pc.setWidth 8)))) ∧
      OnlyRunChanges s t

/-- R79: a halted or fatal state has no step. -/
def Obligations.EndedRunsHaveNoStep : Prop :=
  ∀ s : State, (∀ c, s.run = .halted c → step s = .fault (.noStepHalted c)) ∧
    (∀ r, s.run = .fatal r → step s = .fault (.noStepFatal r))

/-- The model's choice (log 5), not a rule: a running core always has a next state, a core that waits for input
included. The spec (40_execution_loop.md, The step) says that a core has no step while it waits; the model gives the
wait a next state in which the core is unchanged (`Obligations.AWaitChangesNothingOfTheCore`). -/
def Obligations.RunningCoreAlwaysSteps : Prop :=
  ∀ s : State, s.run = .running → ∃ t, step s = .next t

/-! ### Opcodes 0 to 5 -/

/-- R84 to R87: the words of `mov`, `and`, `or`, `not` and their operands; each writes the rule's value, bit by bit,
to `dst` and changes nothing else. -/
def Obligations.MoveAndLogicResults : Prop :=
  (∀ w : Word, (opcodeBits w = 0 → decode w = .mov (regBits w 24) (regBits w 21)) ∧
    (opcodeBits w = 1 → decode w = .and (regBits w 24) (regBits w 21) (regBits w 18)) ∧
    (opcodeBits w = 2 → decode w = .or (regBits w 24) (regBits w 21) (regBits w 18)) ∧
    (opcodeBits w = 3 → decode w = .not (regBits w 24) (regBits w 21))) ∧
  ∀ (s : State) (a b d : Reg),
    (∃ t, exec (.mov a d) s = .next t ∧ t.reg d = s.reg a ∧ OnlyRegChanges d s t) ∧
    (∃ t, exec (.and a b d) s = .next t ∧ OnlyRegChanges d s t ∧
      ∀ i < 32, (t.reg d).getLsbD i = ((s.reg a).getLsbD i && (s.reg b).getLsbD i)) ∧
    (∃ t, exec (.or a b d) s = .next t ∧ OnlyRegChanges d s t ∧
      ∀ i < 32, (t.reg d).getLsbD i = ((s.reg a).getLsbD i || (s.reg b).getLsbD i)) ∧
    (∃ t, exec (.not a d) s = .next t ∧ OnlyRegChanges d s t ∧
      (t.reg d).toNat = 0xFFFFFFFF - (s.reg a).toNat)

/-- R88, R89: the words of `add` and `sub` and their operands; the sum and difference modulo 2^32, with no trap and
nothing else changed. -/
def Obligations.AddAndSubWrap : Prop :=
  (∀ w : Word, (opcodeBits w = 4 → decode w = .add (regBits w 24) (regBits w 21) (regBits w 18)) ∧
    (opcodeBits w = 5 → decode w = .sub (regBits w 24) (regBits w 21) (regBits w 18))) ∧
  ∀ (s : State) (a b d : Reg),
    (∃ t, exec (.add a b d) s = .next t ∧ OnlyRegChanges d s t ∧
      (t.reg d).toNat = ((s.reg a).toNat + (s.reg b).toNat) % 2 ^ 32) ∧
    (∃ t, exec (.sub a b d) s = .next t ∧ OnlyRegChanges d s t ∧
      (t.reg d).toNat = ((s.reg a).toNat + 2 ^ 32 - (s.reg b).toNat) % 2 ^ 32)

/-! ### Opcodes 6 to 9 -/

/-- R91: the words of `mul` and its operands; HI:LO is the exact 64-bit product, and nothing else changes. -/
def Obligations.MulIsTheExactProduct : Prop :=
  (∀ w : Word, opcodeBits w = 6 → decode w = .mul (regBits w 24) (regBits w 21)) ∧
  ∀ (s : State) (a b : Reg),
    ∃ t, exec (.mul a b) s = .next t ∧ OnlyHiLoChange s t ∧
      t.hi.toNat * 2 ^ 32 + t.lo.toNat = (s.reg a).toNat * (s.reg b).toNat

/-- R92: the words of `div` and its operands; with a divisor that is not 0, LO is the quotient and HI the remainder,
and nothing else changes; with a divisor of 0 the run ends in `Fatal(DivideByZero)`, which in a step records the
`div` word, and nothing is written. -/
def Obligations.DivGivesQuotientAndRemainder : Prop :=
  (∀ w : Word, opcodeBits w = 7 → decode w = .div (regBits w 24) (regBits w 21)) ∧
  ∀ (s : State) (a b : Reg),
    (s.reg b ≠ 0 →
      ∃ t, exec (.div a b) s = .next t ∧ OnlyHiLoChange s t ∧
        t.lo.toNat = (s.reg a).toNat / (s.reg b).toNat ∧ t.hi.toNat = (s.reg a).toNat % (s.reg b).toNat) ∧
    (s.reg b = 0 →
      ∃ t w, exec (.div a b) s = .next t ∧ OnlyRunChanges s t ∧ t.run = .fatal (.divideByZero w)) ∧
    (∀ w : Word, s.run = .running → s.pc.toNat < 256 → s.memRead (s.pc.setWidth 8) = w →
      decode w = .div a b → s.reg b = 0 →
      ∃ t, step s = .next t ∧ OnlyRunChanges s t ∧ t.run = .fatal (.divideByZero w))

/-- R93, R94: the words of `mfhi` and `mflo`; they copy HI and LO to `dst` and change nothing else. -/
def Obligations.MovesFromHiAndLo : Prop :=
  (∀ w : Word, (opcodeBits w = 8 → decode w = .mfhi (regBits w 24)) ∧
    (opcodeBits w = 9 → decode w = .mflo (regBits w 24))) ∧
  ∀ (s : State) (d : Reg),
    (∃ t, exec (.mfhi d) s = .next t ∧ t.reg d = s.hi ∧ OnlyRegChanges d s t) ∧
    (∃ t, exec (.mflo d) s = .next t ∧ t.reg d = s.lo ∧ OnlyRegChanges d s t)

/-- R16: a step changes HI or LO only where it runs `mul` or `div`, which write both in the one step whatever they
held; and what they hold reaches no other part of the next state except through `mfhi` (HI) and `mflo` (LO). -/
def Obligations.HiLoBelongToTheirFourInstructions : Prop :=
  (∀ s t : State, step s = .next t → (t.hi ≠ s.hi ∨ t.lo ≠ s.lo) →
    ∃ a b, decode s.fetchWord = .mul a b ∨ decode s.fetchWord = .div a b) ∧
  (∀ (s t : State) (h l : Word), step s = .next t →
    (∀ d, decode s.fetchWord ≠ .mfhi d ∧ decode s.fetchWord ≠ .mflo d) →
    ∃ t', step (s.setHiLo h l) = .next t' ∧ t'.setHiLo t.hi t.lo = t ∧
      ((∃ a b, decode s.fetchWord = .mul a b ∨ decode s.fetchWord = .div a b) → t.run = .running →
        t'.hi = t.hi ∧ t'.lo = t.lo)) ∧
  ∀ (s : State) (d : Reg) (h l : Word),
    (∃ t, exec (.mfhi d) (s.setHiLo h l) = .next t ∧ t.reg d = h) ∧
    (∃ t, exec (.mflo d) (s.setHiLo h l) = .next t ∧ t.reg d = l)

/-! ### Opcodes 10 to 13 -/

/-- R96, R97: the words of `li` and `lw` and their operands; `li` loads its zero-extended immediate and `lw` the word
at its address, and nothing else changes. -/
def Obligations.LoadsWriteTheirRegister : Prop :=
  (∀ w : Word, (opcodeBits w = 10 → decode w = .li (regBits w 24) (w.extractLsb' 0 24)) ∧
    (opcodeBits w = 11 → decode w = .lw (addrBits w 19) (regBits w 16))) ∧
  ∀ (s : State) (d : Reg) (n : BitVec 24) (a : Addr),
    (∃ t, exec (.li d n) s = .next t ∧ (t.reg d).toNat = n.toNat ∧ OnlyRegChanges d s t) ∧
    (∃ t, exec (.lw a d) s = .next t ∧ t.reg d = s.memRead (effAddr a) ∧ OnlyRegChanges d s t)

/-- R98, R99: the words of `si` and `sw` and their operands; `si` stores its zero-extended immediate and `sw` its
register at the instruction's address, and every other word and everything else is unchanged. The memory is in its
canonical form, which every step keeps. -/
def Obligations.StoresWriteOneWord : Prop :=
  (∀ w : Word, (opcodeBits w = 12 → decode w = .si (addrBits w 19) (w.extractLsb' 0 19)) ∧
    (opcodeBits w = 13 → decode w = .sw (regBits w 24) (addrBits w 16))) ∧
  ∀ (s : State) (r : Reg) (n : BitVec 19) (a : Addr), Memory.wf s.mem = true →
    (∃ t, exec (.si a n) s = .next t ∧ (t.memRead (effAddr a)).toNat = n.toNat ∧
      OnlyWordChanges (effAddr a) s t) ∧
    (∃ t, exec (.sw r a) s = .next t ∧ t.memRead (effAddr a) = s.reg r ∧ OnlyWordChanges (effAddr a) s t)

/-- R81 for memory: a step changes a word only where it runs `si` or `sw` to that word, or syscall 6 at or below
it. -/
def Obligations.OnlyStoresChangeMemory : Prop :=
  ∀ (s t : State) (a : Addr), Memory.wf s.mem = true → step s = .next t → t.memRead a ≠ s.memRead a →
    (∃ n, decode s.fetchWord = .si a n) ∨ (∃ r, decode s.fetchWord = .sw r a) ∨
      (decode s.fetchWord = .syscall 6 ∧ (s.reg r7).toNat ≤ a.toNat)

/-- R146, R46: a store to `pc + 1` changes the very next instruction. The next step runs the decoding of what was
stored there: the register of `sw`, the zero-extended immediate of `si`, or the code point that syscall 6 wrote. -/
def Obligations.NextFetchSeesTheStore : Prop :=
  ∀ (s : State) (a : Addr), Memory.wf s.mem = true → s.run = .running → s.pc.toNat < 255 →
    a.toNat = s.pc.toNat + 1 →
    let runs := fun (i : Instr) => decode (s.memRead (s.pc.setWidth 8)) = i
    let nextRuns := fun (w : Word) => ∃ t, step s = .next t ∧ step t = exec (decode w) t
    (∀ r, runs (.sw r a) → nextRuns (s.reg r)) ∧
    (∀ n, runs (.si a n) → nextRuns (BitVec.ofNat 32 n.toNat)) ∧
    (∀ cs rest, runs (.syscall 6) → s.console.inp.readLine s.cfg.stripCr = .got cs rest →
      (s.reg r7).toNat ≤ a.toNat → a.toNat < (s.reg r7).toNat + cs.length →
      nextRuns (cs.getD (a.toNat - (s.reg r7).toNat) 0))

/-! ### Opcodes 14 to 20 -/

/-- R103: the words of `j` and their target; a jump to `addr` leaves `pc` at `addr + 1`, whatever `pc` was, and
changes nothing else. -/
def Obligations.JumpLandsOnePastItsTarget : Prop :=
  (∀ w : Word, opcodeBits w = 14 → decode w = .j (addrBits w 19)) ∧
  ∀ (s : State) (a : Addr),
    ∃ t, exec (.j a) s = .next t ∧ t.pc.toNat = a.toNat + 1 ∧ OnlyPcChanges s t

/-- R104 to R109: the words of the branches and their operands; a branch whose unsigned comparison holds leaves `pc`
at `addr + 1`, one whose comparison fails at the next word, and nothing else changes. -/
def Obligations.BranchesCompareUnsigned : Prop :=
  (∀ w : Word,
    (opcodeBits w = 15 → decode w = .je (regBits w 24) (regBits w 21) (addrBits w 13)) ∧
    (opcodeBits w = 16 → decode w = .jne (regBits w 24) (regBits w 21) (addrBits w 13)) ∧
    (opcodeBits w = 17 → decode w = .jgt (regBits w 24) (regBits w 21) (addrBits w 13)) ∧
    (opcodeBits w = 18 → decode w = .jlt (regBits w 24) (regBits w 21) (addrBits w 13)) ∧
    (opcodeBits w = 19 → decode w = .jge (regBits w 24) (regBits w 21) (addrBits w 13)) ∧
    (opcodeBits w = 20 → decode w = .jle (regBits w 24) (regBits w 21) (addrBits w 13))) ∧
  ∀ (s : State) (x y : Reg) (a : Addr),
    let branches := fun (i : Instr) (taken : Prop) =>
      ∃ t, exec i s = .next t ∧ OnlyPcChanges s t ∧
        (taken → t.pc.toNat = a.toNat + 1) ∧ (¬ taken → t.pc = s.pc + 1)
    branches (.je x y a) ((s.reg x).toNat = (s.reg y).toNat) ∧
    branches (.jne x y a) ((s.reg x).toNat ≠ (s.reg y).toNat) ∧
    branches (.jgt x y a) ((s.reg x).toNat > (s.reg y).toNat) ∧
    branches (.jlt x y a) ((s.reg x).toNat < (s.reg y).toNat) ∧
    branches (.jge x y a) ((s.reg x).toNat ≥ (s.reg y).toNat) ∧
    branches (.jle x y a) ((s.reg x).toNat ≤ (s.reg y).toNat)

/-! ### Console -/

/-- R115: `decimal(v)` is a list of digits whose value is `v`, with no leading zero but for 0 itself, at least one
and at most ten long. -/
def Obligations.DecimalIsTheShortestNumeral : Prop :=
  ∀ v : Word,
    (∀ c ∈ decimal v, 0x30 ≤ c.toNat ∧ c.toNat ≤ 0x39) ∧ digitsValue (decimal v) = v.toNat ∧
    1 ≤ (decimal v).length ∧ (decimal v).length ≤ 10 ∧
    ((decimal v).head? = some 0x30 → v = 0 ∧ decimal v = [0x30])

/-- R116: what `parse_uint` accepts and what it gives; leading zeros are allowed, and it reads back what `decimal`
writes. -/
def Obligations.ParseUintReadsDigitLines : Prop :=
  (∀ (cs : List Word) (v : Word), parseUint cs = some v ↔
    cs ≠ [] ∧ (∀ c ∈ cs, 0x30 ≤ c.toNat ∧ c.toNat ≤ 0x39) ∧ digitsValue cs = v.toNat) ∧
  (∀ cs : List Word, cs ≠ [] → parseUint (0x30 :: cs) = parseUint cs) ∧
  ∀ v : Word, parseUint (decimal v) = some v

/-- R112: `ConsoleReadLine`, case by case on what has arrived. -/
def Obligations.ReadLineTakesOneLine : Prop :=
  ∀ (i : InputStream) (strip : Bool),
    (∀ cs rest, lineFeed ∉ cs → i.arrived = cs ++ lineFeed :: rest →
      i.readLine strip = .got (stripLine strip cs) rest) ∧
    (lineFeed ∉ i.arrived → i.ended = false → i.readLine strip = .wait) ∧
    (i.arrived = [] → i.ended = true → i.readLine strip = .endOfInput) ∧
    (lineFeed ∉ i.arrived → i.arrived ≠ [] → i.ended = true →
      i.readLine strip = .got (stripLine strip i.arrived) []) ∧
    (∀ cs, stripLine false cs = cs) ∧ (∀ cs, stripLine true (cs ++ [carriageReturn]) = cs) ∧
    (∀ cs, cs.getLast? ≠ some carriageReturn → stripLine true cs = cs)

/-- R117, R59: every opcode-21 word but the halt literal is the `syscall` of its bits [26:24], whatever its other
bits are. -/
def Obligations.SyscallWordsNameTheirFunction : Prop :=
  ∀ w : Word, opcodeBits w = 21 → w ≠ 0xA8000000 → decode w = .syscall (w.extractLsb' 24 3)

/-- R119: syscall 0, where the loop has not taken its word for the halt literal, changes nothing but `pc`. -/
def Obligations.SyscallZeroIsANoOp : Prop :=
  ∀ s : State, ∃ t, exec (.syscall 0) s = .next t ∧ OnlyPcChanges s t ∧ t.pc = s.pc + 1

/-- R120: syscall 1 appends the decimal numeral of r7 to the output; r7 and everything else are unchanged. -/
def Obligations.PrintIntAppendsDecimal : Prop :=
  ∀ s : State, ∃ t, exec (.syscall 1) s = .next t ∧ SameCore s t ∧ t.run = s.run ∧ t.pc = s.pc + 1 ∧
    t.console.inp = s.console.inp ∧ t.console.out = s.console.out ++ decimal (s.reg r7)

/-- R121: syscall 2 appends r7 to the output if it is a valid character, and is fatal if it is not. -/
def Obligations.PrintCharAppendsOrFails : Prop :=
  ∀ s : State,
    (charValid s.cfg (s.reg r7) = true →
      ∃ t, exec (.syscall 2) s = .next t ∧ SameCore s t ∧ t.run = s.run ∧ t.pc = s.pc + 1 ∧
        t.console.inp = s.console.inp ∧ t.console.out = s.console.out ++ [s.reg r7]) ∧
    (charValid s.cfg (s.reg r7) = false →
      ∃ t, exec (.syscall 2) s = .next t ∧ OnlyRunChanges s t ∧
        t.run = .fatal (.invalidCharacter (s.reg r7)))

/-- R114: the spec's `char_valid` is the test for a Unicode scalar value. -/
def Obligations.DefaultCharValidIsScalarTest : Prop :=
  ∀ v : Word, charValid Config.default v = true ↔
    v.toNat ≤ 0x10FFFF ∧ ¬ (0xD800 ≤ v.toNat ∧ v.toNat ≤ 0xDFFF)

/-- R122: syscall 3. Where the `n` words from index r7 up are valid characters, none of them 0, it writes exactly
those if a zero word or index 256 follows, and it writes those and is fatal if a word that is neither 0 nor valid
follows; an r7 of 256 or more writes nothing. r7 and memory are unchanged. -/
def Obligations.PrintStringStopsAtZeroOr256 : Prop :=
  ∀ (s : State) (n : Nat),
    let a := (s.reg r7).toNat
    let word := fun i => s.memRead (BitVec.ofNat 8 (a + i))
    let written := s.console.out ++ (List.range n).map word
    (a + n ≤ 256 → (∀ i < n, word i ≠ 0 ∧ charValid s.cfg (word i) = true) →
      ((a + n = 256 ∨ word n = 0) →
        ∃ t, exec (.syscall 3) s = .next t ∧ SameCore s t ∧ t.run = s.run ∧ t.pc = s.pc + 1 ∧
          t.console.inp = s.console.inp ∧ t.console.out = written) ∧
      ((a + n < 256 ∧ word n ≠ 0 ∧ charValid s.cfg (word n) = false) →
        ∃ t, exec (.syscall 3) s = .next t ∧ SameCore s t ∧ t.run = .fatal (.invalidCharacter (word n)) ∧
          t.pc = s.pc ∧ t.console.inp = s.console.inp ∧ t.console.out = written)) ∧
    (256 ≤ a → ∃ t, exec (.syscall 3) s = .next t ∧ OnlyPcChanges s t ∧ t.pc = s.pc + 1)

/-- R123: syscall 4 on each outcome of the line read. -/
def Obligations.ReadIntParsesALine : Prop :=
  ∀ s : State,
    (s.console.inp.readLine s.cfg.stripCr = .endOfInput →
      ∃ t, exec (.syscall 4) s = .next t ∧ OnlyPcChanges s t ∧ t.pc = s.pc + 1) ∧
    (∀ cs rest v, s.console.inp.readLine s.cfg.stripCr = .got cs rest → parseUint cs = some v →
      ∃ t, exec (.syscall 4) s = .next t ∧ t.reg r7 = v ∧ SameRegsBut r7 s t ∧ SameHiLo s t ∧ SameMemory s t ∧
        t.cfg = s.cfg ∧ t.run = s.run ∧ t.pc = s.pc + 1 ∧ t.console.out = s.console.out ∧
        t.console.inp = { s.console.inp with arrived := rest }) ∧
    (∀ cs rest, s.console.inp.readLine s.cfg.stripCr = .got cs rest → parseUint cs = none →
      ∃ t, exec (.syscall 4) s = .next t ∧ SameCore s t ∧ t.run = .fatal (.parseError cs) ∧ t.pc = s.pc ∧
        t.console.out = s.console.out ∧ t.console.inp = { s.console.inp with arrived := rest })

/-- R124 with R113: syscall 5 takes the next code point into r7, or is fatal at the end of the input. -/
def Obligations.ReadCharTakesOneCodePoint : Prop :=
  ∀ s : State,
    (∀ c rest, s.console.inp.arrived = c :: rest →
      ∃ t, exec (.syscall 5) s = .next t ∧ t.reg r7 = c ∧ SameRegsBut r7 s t ∧ SameHiLo s t ∧ SameMemory s t ∧
        t.cfg = s.cfg ∧ t.run = s.run ∧ t.pc = s.pc + 1 ∧ t.console.out = s.console.out ∧
        t.console.inp = { s.console.inp with arrived := rest }) ∧
    (s.console.inp.arrived = [] → s.console.inp.ended = true →
      ∃ t, exec (.syscall 5) s = .next t ∧ OnlyRunChanges s t ∧ t.run = .fatal .inputExhausted)

/-- R125: syscall 6 writes the line's code points at r7, r7 + 1, … below 256, drops the rest, and changes no other
word and no register; the line is consumed. At the end of the input it changes nothing but `pc`. -/
def Obligations.ReadLineGoesToMemory : Prop :=
  ∀ s : State, Memory.wf s.mem = true →
    (s.console.inp.readLine s.cfg.stripCr = .endOfInput →
      ∃ t, exec (.syscall 6) s = .next t ∧ OnlyPcChanges s t ∧ t.pc = s.pc + 1) ∧
    (∀ cs rest, s.console.inp.readLine s.cfg.stripCr = .got cs rest →
      ∃ t, exec (.syscall 6) s = .next t ∧ SameRegs s t ∧ SameHiLo s t ∧ t.cfg = s.cfg ∧ t.run = s.run ∧
        t.pc = s.pc + 1 ∧ t.console.out = s.console.out ∧
        t.console.inp = { s.console.inp with arrived := rest } ∧
        ∀ a : Addr, t.memRead a =
          if (s.reg r7).toNat ≤ a.toNat ∧ a.toNat < (s.reg r7).toNat + cs.length
          then cs.getD (a.toNat - (s.reg r7).toNat) 0 else s.memRead a)

/-- R126: syscall 7 is fatal and changes nothing else. -/
def Obligations.SyscallSevenIsFatal : Prop :=
  ∀ s : State, ∃ t, exec (.syscall 7) s = .next t ∧ OnlyRunChanges s t ∧ t.run = .fatal (.invalidSyscall 7)

/-- R80: while a read waits, `pc`, the run state, registers, memory and output are as they were; only the host's next
action, if it has one, happens to the input. How the host's action is taken at a wait is the model's choice
(log 5, log 6). -/
def Obligations.AWaitChangesNothingOfTheCore : Prop :=
  ∀ s : State,
    let waits := fun (f : BitVec 3) =>
      ∃ t, exec (.syscall f) s = .next t ∧ SameCore s t ∧ t.run = s.run ∧ t.pc = s.pc ∧
        t.console.out = s.console.out ∧
        (s.console.inp.coming = [] → t = s) ∧
        (∀ e rest, s.console.inp.coming = e :: rest →
          t.console.inp = { s.console.inp with coming := rest }.deliver e)
    (lineFeed ∉ s.console.inp.arrived → s.console.inp.ended = false → waits 4 ∧ waits 6) ∧
    (s.console.inp.arrived = [] → s.console.inp.ended = false → waits 5)

/-- R118: the syscalls touch no register but r7, not HI or LO and, but for code 6, no memory. -/
def Obligations.SyscallsTouchOnlyR7AndMemory : Prop :=
  ∀ (s t : State) (f : BitVec 3), exec (.syscall f) s = .next t →
    SameRegsBut r7 s t ∧ SameHiLo s t ∧ t.cfg = s.cfg ∧ (f ≠ 6 → SameMemory s t) ∧
      (f ≠ 4 → f ≠ 5 → t.reg r7 = s.reg r7)

/-! ### Whole-machine rules -/

/-- R81 for registers: a step changes a general register only where its instruction names it as a destination, or
it is r7 and the instruction is syscall 4 or 5 (R14); no step changes the fixed parameters. -/
def Obligations.OnlyDestinationsChangeRegisters : Prop :=
  ∀ (s t : State) (r : Reg), step s = .next t →
    (t.reg r ≠ s.reg r → mayWriteReg r (decode s.fetchWord) = true) ∧ t.cfg = s.cfg

/-- R29, R111: the output only grows, by a step of syscall 1, 2 or 3; what has arrived is only taken from the front,
by a step of syscall 4, 5 or 6, or added to by the host while the step waits. -/
def Obligations.OnlySyscallsReachTheConsole : Prop :=
  ∀ s t : State, step s = .next t →
    (∃ cs, t.console.out = s.console.out ++ cs ∧
      (cs ≠ [] → ∃ f, decode s.fetchWord = .syscall f ∧ (f = 1 ∨ f = 2 ∨ f = 3))) ∧
    (t.console.inp ≠ s.console.inp → ∃ f, decode s.fetchWord = .syscall f ∧ (f = 4 ∨ f = 5 ∨ f = 6)) ∧
    (s.waits = false → ∃ used, s.console.inp.arrived = used ++ t.console.inp.arrived ∧
      t.console.inp.ended = s.console.inp.ended ∧ t.console.inp.coming = s.console.inp.coming)

/-- R78, R101: a step that goes on leaves `pc` at the next word, at one past the address of a jump or branch, or,
while it waits for input, where it was. -/
def Obligations.PcMovesOnOrJumps : Prop :=
  ∀ s t : State, step s = .next t → t.run = .running →
    t.pc = s.pc + 1 ∨ (s.waits = true ∧ t.pc = s.pc) ∨
      ∃ a : Addr, t.pc.toNat = a.toNat + 1 ∧
        (decode s.fetchWord = .j a ∨
          ∃ x y, decode s.fetchWord = .je x y a ∨ decode s.fetchWord = .jne x y a ∨
            decode s.fetchWord = .jgt x y a ∨ decode s.fetchWord = .jlt x y a ∨
            decode s.fetchWord = .jge x y a ∨ decode s.fetchWord = .jle x y a)

/-- R128: a step that ends in `Fatal` changes the run state and the console and nothing else; what it wrote is from
syscall 3 and what it consumed from syscall 4 or 5. -/
def Obligations.FatalStepsCommitNothing : Prop :=
  ∀ (s t : State) (r : FatalReason), step s = .next t → t.run = .fatal r →
    SameCore s t ∧ t.pc = s.pc ∧
    (∃ cs, t.console.out = s.console.out ++ cs ∧ (cs ≠ [] → decode s.fetchWord = .syscall 3)) ∧
    (∃ used, s.console.inp.arrived = used ++ t.console.inp.arrived ∧
      (used ≠ [] → decode s.fetchWord = .syscall 4 ∨ decode s.fetchWord = .syscall 5))

/-- R127, R129, R130: whatever state a step leaves, if the run has ended there, the end has the cause R127 and R129
give for it: the word at `pc`, and the registers, memory and input it failed on. The line of a `ParseError` is the
line read (R123); the word of an `InvalidCharacter` of syscall 3 is the first failing word, before any zero word, and
what was written is what stands before it (R122). -/
def Obligations.EveryEndHasItsCause : Prop :=
  ∀ s t : State, step s = .next t → EndIsPrecise s t

/-- The machine is running at reset (R24) and the invariant holds there. -/
def Obligations.ResetMeetsTheInvariant : Prop := State.reset.run = .running ∧ State.reset.Ok

/-- Every launch whose input is code points meets the invariant. -/
def Obligations.LaunchMeetsTheInvariant : Prop :=
  ∀ (p : Launch) (s : State), p.start = some s →
    (∀ cs, HostEvent.append cs ∈ p.input.coming → ∀ c ∈ cs, c.toNat ≤ 0x10FFFF) → s.Ok

/-- Every step keeps the invariant: memory canonical, `pc` in 1..256 (R20, R41), input of code points, output of
valid characters (R114). -/
def Obligations.EveryStepKeepsTheInvariant : Prop :=
  ∀ s t : State, s.Ok → step s = .next t → t.Ok

/-- When the host acts cannot be told: a step that does not wait gives the same state, but for what the host
delivered, whether the host acts before it or after it (R80, R137; log 6). -/
def Obligations.DeliveryCommutesWithSteps : Prop :=
  ∀ (s t : State) (e : HostEvent), s.console.inp.ended = false → s.waits = false →
    step s = .next t → step (s.deliver e) = .next (t.deliver e)

/-- The eight sub-blocks with their control words (R66 to R72) take the very step of the execution loop (R73). -/
def Obligations.SubBlocksTakeTheSameStep : Prop :=
  ∀ s : State, s.run = .running → step s = .next (datapathStep s)

/-! ### Runs -/

/-- R82: a run goes on for as long as the core is running, whatever the launch's input; there is no step limit. (That
a waiting core takes a step is the model's choice, log 5.) -/
def Obligations.RunsGoOnWhileRunning : Prop :=
  ∀ (p : Launch) (n : Nat) (s : State), p.run n = some (.next s) →
    (s.run = .running → ∃ t, p.run (n + 1) = some (.next t)) ∧
    (s.run ≠ .running → ∀ k t, p.run (n + 1 + k) ≠ some (.next t))

/-- R29, R112, R113 for an unbounded input: however long the run, what the core has still to read is exactly the code
points of the sequence after those it has taken, in order, none lost and none twice; the end is never reached. The
feed of one code point before each step is the model's choice (log 20). -/
def Obligations.UnboundedInputIsReadInOrder : Prop :=
  ∀ (p : Launch) (c : Nat → Word) (n : Nat) (s : State),
    p.input = .unbounded c → p.run n = some (.next s) →
    ∃ k ≤ n, s.console.inp = { arrived := (List.range' k (n - k)).map c, ended := false, coming := [] } ∧
      ∀ t, p.run (n + 1) = some (.next t) →
        ∃ k', k ≤ k' ∧ k' ≤ n + 1 ∧ t.console.inp.arrived = (List.range' k' (n + 1 - k')).map c

/-- Every state of every run meets the invariant, if what the host delivers is code points (R20, D11): in a run `pc`
only ever holds values in 0..256. -/
def Obligations.RunsMeetTheInvariant : Prop :=
  ∀ (p : Launch) (n : Nat) (s : State), p.run n = some (.next s) →
    (∀ cs, HostEvent.append cs ∈ p.input.coming → ∀ c ∈ cs, c.toNat ≤ 0x10FFFF) →
    (∀ k cs, HostEvent.append cs ∈ p.input.before k → ∀ c ∈ cs, c.toNat ≤ 0x10FFFF) → s.Ok
end

