-- ==== Sys2Proof/Laws/Decode.lean ====
section
/-! SUPPORT. Fields and places (spec/30_encoding.md R52, R62): a field read where it was placed gives it back, and a
field read elsewhere sees nothing of it. -/

namespace Sys2Proof

/-- A field of a combined word is the combination of the fields. -/
@[simp] theorem field_or (c k : Nat) (x y : Word) : field c k (x ||| y) = field c k x ||| field c k y := by
  ext i hi
  simp [field]

/-- A field reads back what was placed there. -/
theorem field_place {c k : Nat} (hk : k ≤ c) (hc : c ≤ 32) (f : BitVec k) : field c k (place c f) = f := by
  ext i hi
  have h1 : 32 - c + i < 32 := by omega
  have h2 : i < 32 := by omega
  simp [field, place, hi, h1, h2]

/-- A field below a placed one does not see it. -/
theorem field_place_above {c k c' k' : Nat} (h : c' + k ≤ c) (hc : c ≤ 32) (f : BitVec k') :
    field c k (place c' f) = 0 := by
  ext i hi
  have h1 : 32 - c + i < 32 - c' := by omega
  simp [field, place, h1]

/-- A field above a placed one does not see it. -/
theorem field_place_below {c k c' k' : Nat} (h : c + k' ≤ c') (hc : c' ≤ 32) (f : BitVec k') :
    field c k (place c' f) = 0 := by
  ext i hi
  have h1 : k' ≤ 32 - c + i - (32 - c') := by omega
  simp [field, place, BitVec.getLsbD_of_ge, h1]

/-- The extraction of R52 is the bit slice of R53. -/
theorem field_eq_extract (c k : Nat) (w : Word) :
    field c k w = w.extractLsb' (32 - c) k := by
  ext i hi
  simp [field]

/-- A register is the register of its field. -/
@[simp] theorem ofField_toField (r : Reg) : Reg.ofField r.toField = r := rfl

/-- A field is the field of its register. -/
@[simp] theorem toField_ofField (f : BitVec 3) : (Reg.ofField f).toField = f := rfl

/-- The opcode field of the formats. -/
theorem fieldOpcode_place (op : BitVec 5) : fieldOpcode (place 5 op) = op :=
  field_place (by omega) (by omega) op

/-- A field after the opcode leaves the opcode field alone. -/
theorem fieldOpcode_place_below {c k : Nat} (h : 5 + k ≤ c) (hc : c ≤ 32) (f : BitVec k) :
    fieldOpcode (place c f) = 0 :=
  field_place_below h hc f

end Sys2Proof
end

