-- ==== Sys2Proof/Laws/Memory.lean ====
section
/-! SUPPORT. The memory in its canonical form: every operation keeps it, a read after a write gives the value
written, and a write leaves every other word alone (spec/20_memory.md R39). -/

namespace Sys2Proof.Machine.Memory

/-- The canonical form of a list with a head, unpacked. -/
theorem wf_cons {k : Nat} {w : Word} {m : Memory} :
    wf ((k, w) :: m) = true ↔
      k < memWords ∧ w ≠ unlistedWord ∧ (∀ c ∈ m, k < c.1) ∧ wf m = true := by
  simp [wf, and_assoc]

/-- A key below every listed key is unlisted. -/
theorem find_of_lt {m : Memory} {a : Nat} (h : ∀ c ∈ m, a < c.1) : find m a = unlistedWord := by
  induction m with
  | nil => rfl
  | cons c m ih =>
    obtain ⟨k, w⟩ := c
    have hk : a < k := h (k, w) (by simp)
    have : a ≠ k := by omega
    simp only [find, this, if_false]
    exact ih fun c hc => h c (by simp [hc])

/-- Every key of the written memory is the written one or an old one. -/
theorem mem_put {m : Memory} {a : Nat} {v : Word} {c : Nat × Word} (h : c ∈ put m a v) :
    c.1 = a ∨ c ∈ m := by
  induction m with
  | nil =>
    simp only [put] at h
    split at h <;> simp_all
  | cons d m ih =>
    obtain ⟨k, w⟩ := d
    simp only [put] at h
    split at h
    · split at h
      · exact .inr h
      · rcases List.mem_cons.1 h with rfl | h
        · exact .inl rfl
        · exact .inr h
    · split at h
      · split at h
        · exact .inr (List.mem_cons_of_mem _ h)
        · rcases List.mem_cons.1 h with rfl | h
          · exact .inl rfl
          · exact .inr (List.mem_cons_of_mem _ h)
      · rcases List.mem_cons.1 h with rfl | h
        · exact .inr (by simp)
        · rcases ih h with h | h
          · exact .inl h
          · exact .inr (List.mem_cons_of_mem _ h)

/-- A write at a key below 256 keeps the canonical form. -/
theorem put_wf {m : Memory} {a : Nat} (v : Word) (ha : a < memWords) (h : wf m = true) :
    wf (put m a v) = true := by
  induction m with
  | nil =>
    simp only [put]
    split
    · rfl
    · exact wf_cons.2 ⟨ha, ‹_›, by simp, rfl⟩
  | cons d m ih =>
    obtain ⟨k, w⟩ := d
    obtain ⟨hk, hw, hlt, hm⟩ := wf_cons.1 h
    simp only [put]
    split
    · rename_i hak
      split
      · exact h
      · refine wf_cons.2 ⟨ha, ‹_›, ?_, h⟩
        intro c hc
        rcases List.mem_cons.1 hc with rfl | hc
        · exact hak
        · exact lt_trans hak (hlt c hc)
    · split
      · rename_i hak
        subst hak
        split
        · exact hm
        · exact wf_cons.2 ⟨ha, ‹_›, hlt, hm⟩
      · refine wf_cons.2 ⟨hk, hw, ?_, ih hm⟩
        intro c hc
        rcases mem_put hc with hc | hc
        · omega
        · exact hlt c hc

/-- Read after write, by key. -/
theorem find_put {m : Memory} (a : Nat) (v : Word) (b : Nat) (h : wf m = true) :
    find (put m a v) b = if b = a then v else find m b := by
  induction m with
  | nil =>
    by_cases hv : v = unlistedWord <;> by_cases hb : b = a <;> simp [put, find, hv, hb]
  | cons d m ih =>
    obtain ⟨k, w⟩ := d
    obtain ⟨hk, hw, hlt, hm⟩ := wf_cons.1 h
    have below : ∀ x, x ≤ k → find m x = unlistedWord := fun x hx =>
      find_of_lt fun c hc => lt_of_le_of_lt hx (hlt c hc)
    simp only [put]
    split
    · rename_i hak
      by_cases hv : v = unlistedWord
      · by_cases hb : b = a
        · subst hb
          have : b ≠ k := by omega
          simp [hv, find, this, below b (by omega)]
        · simp [hv, hb]
      · by_cases hb : b = a <;> simp [hv, hb, find]
    · split
      · rename_i hak
        subst hak
        by_cases hv : v = unlistedWord <;> by_cases hb : b = a <;> simp [hv, hb, find, below a (le_refl a)]
      · rename_i hak hne
        by_cases hb : b = k
        · subst hb
          have : b ≠ a := fun e => hne e.symm
          simp [find, this]
        · simp [find, hb, ih hm]

/-- Every write keeps the canonical form. -/
theorem write_wf {m : Memory} (a : Addr) (v : Word) (h : wf m = true) : wf (write m a v) = true :=
  put_wf v a.isLt h

/-- A read after a write (R39): the value written there, and every other word as before. -/
theorem read_write {m : Memory} (a : Addr) (v : Word) (b : Addr) (h : wf m = true) :
    read (write m a v) b = if b = a then v else read m b := by
  simp [read, write, find_put _ _ _ h, BitVec.toNat_inj]

/-- A walk of writes keeps the canonical form. -/
theorem writeFrom_wf {m : Memory} (a : Nat) (cs : List Word) (h : wf m = true) :
    wf (writeFrom m a cs) = true := by
  induction cs generalizing m a with
  | nil => exact h
  | cons c cs ih =>
    simp only [writeFrom]
    split
    · exact ih (a + 1) (write_wf _ c h)
    · exact h

/-- What a walk of writes leaves at each word (R125). -/
theorem read_writeFrom {m : Memory} (a : Nat) (cs : List Word) (b : Addr) (h : wf m = true) :
    read (writeFrom m a cs) b =
      if a ≤ b.toNat ∧ b.toNat < a + cs.length then cs.getD (b.toNat - a) 0 else read m b := by
  induction cs generalizing m a with
  | nil => simp [writeFrom]
  | cons c cs ih =>
    simp only [writeFrom]
    have hb : b.toNat < memWords := b.isLt
    split
    · rename_i ha
      rw [ih (a + 1) (write_wf _ c h), read_write _ _ _ h]
      have key : b = BitVec.ofNat 8 a ↔ b.toNat = a := by
        rw [← BitVec.toNat_inj, BitVec.toNat_ofNat, Nat.mod_eq_of_lt (by simpa using ha)]
      by_cases hba : b.toNat = a
      · have : b = BitVec.ofNat 8 a := key.2 hba
        simp only [this, if_true]
        simp only [← this]
        simp [hba]
      · have hne : b ≠ BitVec.ofNat 8 a := fun e => hba (key.1 e)
        simp only [hne, if_false, List.length_cons]
        by_cases hr : a + 1 ≤ b.toNat ∧ b.toNat < a + 1 + cs.length
        · rw [if_pos hr, if_pos (by omega)]
          have : b.toNat - a = (b.toNat - (a + 1)) + 1 := by omega
          simp [this]
        · rw [if_neg hr, if_neg (by omega)]
    · rw [if_neg (by omega)]

/-- In canonical form a listed key reads as its entry, never as an unlisted one. -/
theorem find_ne_of_mem {m : Memory} {c : Nat × Word} (h : wf m = true) (hc : c ∈ m) : find m c.1 = c.2 := by
  induction m with
  | nil => simp at hc
  | cons d m ih =>
    obtain ⟨k, w⟩ := d
    obtain ⟨_, _, hlt, hm⟩ := wf_cons.1 h
    rcases List.mem_cons.1 hc with rfl | hc
    · simp [find]
    · have : c.1 ≠ k := Nat.ne_of_gt (hlt c hc)
      simp [find, this, ih hm hc]

end Sys2Proof.Machine.Memory
end

