-- ==== Sys2Proof/Laws/PerInstr.lean ====
section
/-! SUPPORT. Facts about every instruction as syntax, one lemma per constructor. Family EncodeOpcode: the top five
bits of an instruction's word are its opcode (spec/30_encoding.md R51, R56, R62). -/

namespace Sys2Proof.Laws.EncodeOpcode

/-- The opcode field of the encoded word is the opcode of the instruction. -/
def Statement (i : Instr) : Prop := fieldOpcode (encode i) = i.opcode

/-- The opcode field of a combined word. -/
theorem fieldOpcode_or (x y : Word) : fieldOpcode (x ||| y) = fieldOpcode x ||| fieldOpcode y := field_or 5 5 x y

/-- The opcode field of each format of R53. -/
theorem format_r (op : BitVec 5) (a : Reg) : fieldOpcode (encodeR op a) = op := by
  simp only [encodeR, fieldOpcode_or, fieldOpcode_place]
  rw [fieldOpcode_place_below (by omega) (by omega)]
  simp

theorem format_rr (op : BitVec 5) (a b : Reg) : fieldOpcode (encodeRR op a b) = op := by
  simp only [encodeRR, fieldOpcode_or, format_r]
  rw [fieldOpcode_place_below (by omega) (by omega)]
  simp

theorem format_rrr (op : BitVec 5) (a b c : Reg) : fieldOpcode (encodeRRR op a b c) = op := by
  simp only [encodeRRR, fieldOpcode_or, format_rr]
  rw [fieldOpcode_place_below (by omega) (by omega)]
  simp

theorem format_rrm (op : BitVec 5) (a b : Reg) (m : Addr) : fieldOpcode (encodeRRM op a b m) = op := by
  simp only [encodeRRM, fieldOpcode_or, format_rr]
  rw [fieldOpcode_place_below (by omega) (by omega)]
  simp

theorem format_m (op : BitVec 5) (m : Addr) : fieldOpcode (encodeM op m) = op := by
  simp only [encodeM, fieldOpcode_or, fieldOpcode_place]
  rw [fieldOpcode_place_below (by omega) (by omega)]
  simp

/-- One more field below the opcode changes nothing. -/
theorem with_field {w : Word} {op : BitVec 5} (h : fieldOpcode w = op) {c k : Nat} (hk : 5 + k ≤ c) (hc : c ≤ 32)
    (f : BitVec k) : fieldOpcode (w ||| place c f) = op := by
  rw [fieldOpcode_or, h, fieldOpcode_place_below hk hc]
  simp

theorem mov (a b : Reg) : Statement (.mov a b) :=
  format_rr _ a b

theorem and (a b c : Reg) : Statement (.and a b c) :=
  format_rrr _ a b c

theorem or (a b c : Reg) : Statement (.or a b c) :=
  format_rrr _ a b c

theorem not (a b : Reg) : Statement (.not a b) :=
  format_rr _ a b

theorem add (a b c : Reg) : Statement (.add a b c) :=
  format_rrr _ a b c

theorem sub (a b c : Reg) : Statement (.sub a b c) :=
  format_rrr _ a b c

theorem mul (a b : Reg) : Statement (.mul a b) :=
  format_rr _ a b

theorem div (a b : Reg) : Statement (.div a b) :=
  format_rr _ a b

theorem mfhi (a : Reg) : Statement (.mfhi a) :=
  format_r _ a

theorem mflo (a : Reg) : Statement (.mflo a) :=
  format_r _ a

theorem li (a : Reg) (n : BitVec 24) : Statement (.li a n) :=
  with_field (format_r _ a) (by omega) (by omega) n

theorem lw (m : Addr) (a : Reg) : Statement (.lw m a) :=
  with_field (format_m _ m) (by omega) (by omega) a.toField

theorem si (m : Addr) (n : BitVec 19) : Statement (.si m n) :=
  with_field (format_m _ m) (by omega) (by omega) n

theorem sw (a : Reg) (m : Addr) : Statement (.sw a m) :=
  with_field (format_r _ a) (by omega) (by omega) m

theorem j (m : Addr) : Statement (.j m) :=
  format_m _ m

theorem je (a b : Reg) (m : Addr) : Statement (.je a b m) :=
  format_rrm _ a b m

theorem jne (a b : Reg) (m : Addr) : Statement (.jne a b m) :=
  format_rrm _ a b m

theorem jgt (a b : Reg) (m : Addr) : Statement (.jgt a b m) :=
  format_rrm _ a b m

theorem jlt (a b : Reg) (m : Addr) : Statement (.jlt a b m) :=
  format_rrm _ a b m

theorem jge (a b : Reg) (m : Addr) : Statement (.jge a b m) :=
  format_rrm _ a b m

theorem jle (a b : Reg) (m : Addr) : Statement (.jle a b m) :=
  format_rrm _ a b m

theorem halt : Statement (.halt) :=
  fieldOpcode_place _

theorem syscall (f : BitVec 3) : Statement (.syscall f) :=
  with_field (fieldOpcode_place _) (by omega) (by omega) f

theorem invalid22 (op : BitVec 5) : Statement (.invalid22 op) :=
  fieldOpcode_place op

theorem invalid24 (op : BitVec 5) : Statement (.invalid24 op) :=
  fieldOpcode_place op

/-- The statement for every instruction. -/
theorem every_instr (i : Instr) : Statement i := by
  cases i with
  | mov x y => exact mov x y
  | and x y z => exact and x y z
  | or x y z => exact or x y z
  | not x y => exact not x y
  | add x y z => exact add x y z
  | sub x y z => exact sub x y z
  | mul x y => exact mul x y
  | div x y => exact div x y
  | mfhi x => exact mfhi x
  | mflo x => exact mflo x
  | li x y => exact li x y
  | lw x y => exact lw x y
  | si x y => exact si x y
  | sw x y => exact sw x y
  | j x => exact j x
  | je x y z => exact je x y z
  | jne x y z => exact jne x y z
  | jgt x y z => exact jgt x y z
  | jlt x y z => exact jlt x y z
  | jge x y z => exact jge x y z
  | jle x y z => exact jle x y z
  | halt => exact halt
  | syscall x => exact syscall x
  | invalid22 x => exact invalid22 x
  | invalid24 x => exact invalid24 x

end Sys2Proof.Laws.EncodeOpcode
end

