-- ==== Sys2Proof/Laws/State.lean ====
section
/-! SUPPORT. One lemma per field per update of the state, true by `rfl`, so that no later proof unfolds a record
update; and the same for the two reads, `reg` and `memRead`, through each update. -/

namespace Sys2Proof.Machine.State

variable (s : State)

@[simp] theorem setReg_gpr (r : Reg) (v : Word) : (s.setReg r v).gpr = s.gpr.set r.val v := rfl
@[simp] theorem setReg_hi (r : Reg) (v : Word) : (s.setReg r v).hi = s.hi := rfl
@[simp] theorem setReg_lo (r : Reg) (v : Word) : (s.setReg r v).lo = s.lo := rfl
@[simp] theorem setReg_pc (r : Reg) (v : Word) : (s.setReg r v).pc = s.pc := rfl
@[simp] theorem setReg_mem (r : Reg) (v : Word) : (s.setReg r v).mem = s.mem := rfl
@[simp] theorem setReg_run (r : Reg) (v : Word) : (s.setReg r v).run = s.run := rfl
@[simp] theorem setReg_console (r : Reg) (v : Word) : (s.setReg r v).console = s.console := rfl
@[simp] theorem setReg_cfg (r : Reg) (v : Word) : (s.setReg r v).cfg = s.cfg := rfl
@[simp] theorem setReg_memRead (r : Reg) (v : Word) (b : Addr) : (s.setReg r v).memRead b = s.memRead b := rfl

@[simp] theorem setHiLo_gpr (h l : Word) : (s.setHiLo h l).gpr = s.gpr := rfl
@[simp] theorem setHiLo_hi (h l : Word) : (s.setHiLo h l).hi = h := rfl
@[simp] theorem setHiLo_lo (h l : Word) : (s.setHiLo h l).lo = l := rfl
@[simp] theorem setHiLo_pc (h l : Word) : (s.setHiLo h l).pc = s.pc := rfl
@[simp] theorem setHiLo_mem (h l : Word) : (s.setHiLo h l).mem = s.mem := rfl
@[simp] theorem setHiLo_run (h l : Word) : (s.setHiLo h l).run = s.run := rfl
@[simp] theorem setHiLo_console (h l : Word) : (s.setHiLo h l).console = s.console := rfl
@[simp] theorem setHiLo_cfg (h l : Word) : (s.setHiLo h l).cfg = s.cfg := rfl
@[simp] theorem setHiLo_reg (h l : Word) (q : Reg) : (s.setHiLo h l).reg q = s.reg q := rfl
@[simp] theorem setHiLo_memRead (h l : Word) (b : Addr) : (s.setHiLo h l).memRead b = s.memRead b := rfl

@[simp] theorem memWrite_gpr (a : Addr) (v : Word) : (s.memWrite a v).gpr = s.gpr := rfl
@[simp] theorem memWrite_hi (a : Addr) (v : Word) : (s.memWrite a v).hi = s.hi := rfl
@[simp] theorem memWrite_lo (a : Addr) (v : Word) : (s.memWrite a v).lo = s.lo := rfl
@[simp] theorem memWrite_pc (a : Addr) (v : Word) : (s.memWrite a v).pc = s.pc := rfl
@[simp] theorem memWrite_mem (a : Addr) (v : Word) : (s.memWrite a v).mem = Memory.write s.mem a v := rfl
@[simp] theorem memWrite_run (a : Addr) (v : Word) : (s.memWrite a v).run = s.run := rfl
@[simp] theorem memWrite_console (a : Addr) (v : Word) : (s.memWrite a v).console = s.console := rfl
@[simp] theorem memWrite_cfg (a : Addr) (v : Word) : (s.memWrite a v).cfg = s.cfg := rfl
@[simp] theorem memWrite_reg (a : Addr) (v : Word) (q : Reg) : (s.memWrite a v).reg q = s.reg q := rfl

@[simp] theorem retire_gpr : (s.retire).gpr = s.gpr := rfl
@[simp] theorem retire_hi : (s.retire).hi = s.hi := rfl
@[simp] theorem retire_lo : (s.retire).lo = s.lo := rfl
@[simp] theorem retire_pc : (s.retire).pc = s.pc + 1 := rfl
@[simp] theorem retire_mem : (s.retire).mem = s.mem := rfl
@[simp] theorem retire_run : (s.retire).run = s.run := rfl
@[simp] theorem retire_console : (s.retire).console = s.console := rfl
@[simp] theorem retire_cfg : (s.retire).cfg = s.cfg := rfl
@[simp] theorem retire_reg (q : Reg) : (s.retire).reg q = s.reg q := rfl
@[simp] theorem retire_memRead (b : Addr) : (s.retire).memRead b = s.memRead b := rfl

@[simp] theorem jump_gpr (a : Addr) : (s.jump a).gpr = s.gpr := rfl
@[simp] theorem jump_hi (a : Addr) : (s.jump a).hi = s.hi := rfl
@[simp] theorem jump_lo (a : Addr) : (s.jump a).lo = s.lo := rfl
@[simp] theorem jump_pc (a : Addr) : (s.jump a).pc = a.setWidth 32 := rfl
@[simp] theorem jump_mem (a : Addr) : (s.jump a).mem = s.mem := rfl
@[simp] theorem jump_run (a : Addr) : (s.jump a).run = s.run := rfl
@[simp] theorem jump_console (a : Addr) : (s.jump a).console = s.console := rfl
@[simp] theorem jump_cfg (a : Addr) : (s.jump a).cfg = s.cfg := rfl
@[simp] theorem jump_reg (a : Addr) (q : Reg) : (s.jump a).reg q = s.reg q := rfl
@[simp] theorem jump_memRead (a : Addr) (b : Addr) : (s.jump a).memRead b = s.memRead b := rfl

@[simp] theorem halt_gpr (c : HaltCause) : (s.halt c).gpr = s.gpr := rfl
@[simp] theorem halt_hi (c : HaltCause) : (s.halt c).hi = s.hi := rfl
@[simp] theorem halt_lo (c : HaltCause) : (s.halt c).lo = s.lo := rfl
@[simp] theorem halt_pc (c : HaltCause) : (s.halt c).pc = s.pc := rfl
@[simp] theorem halt_mem (c : HaltCause) : (s.halt c).mem = s.mem := rfl
@[simp] theorem halt_run (c : HaltCause) : (s.halt c).run = .halted c := rfl
@[simp] theorem halt_console (c : HaltCause) : (s.halt c).console = s.console := rfl
@[simp] theorem halt_cfg (c : HaltCause) : (s.halt c).cfg = s.cfg := rfl
@[simp] theorem halt_reg (c : HaltCause) (q : Reg) : (s.halt c).reg q = s.reg q := rfl
@[simp] theorem halt_memRead (c : HaltCause) (b : Addr) : (s.halt c).memRead b = s.memRead b := rfl

@[simp] theorem raiseFatal_gpr (f : FatalReason) : (s.raiseFatal f).gpr = s.gpr := rfl
@[simp] theorem raiseFatal_hi (f : FatalReason) : (s.raiseFatal f).hi = s.hi := rfl
@[simp] theorem raiseFatal_lo (f : FatalReason) : (s.raiseFatal f).lo = s.lo := rfl
@[simp] theorem raiseFatal_pc (f : FatalReason) : (s.raiseFatal f).pc = s.pc := rfl
@[simp] theorem raiseFatal_mem (f : FatalReason) : (s.raiseFatal f).mem = s.mem := rfl
@[simp] theorem raiseFatal_run (f : FatalReason) : (s.raiseFatal f).run = .fatal f := rfl
@[simp] theorem raiseFatal_console (f : FatalReason) : (s.raiseFatal f).console = s.console := rfl
@[simp] theorem raiseFatal_cfg (f : FatalReason) : (s.raiseFatal f).cfg = s.cfg := rfl
@[simp] theorem raiseFatal_reg (f : FatalReason) (q : Reg) : (s.raiseFatal f).reg q = s.reg q := rfl
@[simp] theorem raiseFatal_memRead (f : FatalReason) (b : Addr) : (s.raiseFatal f).memRead b = s.memRead b := rfl

@[simp] theorem deliver_gpr (e : HostEvent) : (s.deliver e).gpr = s.gpr := rfl
@[simp] theorem deliver_hi (e : HostEvent) : (s.deliver e).hi = s.hi := rfl
@[simp] theorem deliver_lo (e : HostEvent) : (s.deliver e).lo = s.lo := rfl
@[simp] theorem deliver_pc (e : HostEvent) : (s.deliver e).pc = s.pc := rfl
@[simp] theorem deliver_mem (e : HostEvent) : (s.deliver e).mem = s.mem := rfl
@[simp] theorem deliver_run (e : HostEvent) : (s.deliver e).run = s.run := rfl
@[simp] theorem deliver_console (e : HostEvent) : (s.deliver e).console = { s.console with inp := s.console.inp.deliver e } := rfl
@[simp] theorem deliver_cfg (e : HostEvent) : (s.deliver e).cfg = s.cfg := rfl
@[simp] theorem deliver_reg (e : HostEvent) (q : Reg) : (s.deliver e).reg q = s.reg q := rfl
@[simp] theorem deliver_memRead (e : HostEvent) (b : Addr) : (s.deliver e).memRead b = s.memRead b := rfl

/-- A register reads back what was written, and no other register changes (R12). -/
@[simp] theorem setReg_reg (r : Reg) (v : Word) (q : Reg) :
    (s.setReg r v).reg q = if q = r then v else s.reg q := by
  by_cases h : q = r
  · subst h; simp [State.reg, State.setReg]
  · have h' : r.val ≠ q.val := fun e => h (Fin.ext e.symm)
    simp [State.reg, State.setReg, h, h']

/-- Two states with the same register file read every register alike. -/
theorem reg_congr {t : State} (h : t.gpr = s.gpr) (q : Reg) : t.reg q = s.reg q := by
  simp [State.reg, h]

/-- Two states with the same memory read every word alike. -/
theorem memRead_congr {t : State} (h : t.mem = s.mem) (a : Addr) : t.memRead a = s.memRead a := by
  simp [State.memRead, h]

/-- What a branch does to `pc`: the target plus one, or the next word (R101). -/
theorem branch_pc (c : Bool) (a : Addr) :
    (s.branch c a).pc = if c then a.setWidth 32 + 1 else s.pc + 1 := by
  cases c <;> rfl

@[simp] theorem branch_gpr (c : Bool) (a : Addr) : (s.branch c a).gpr = s.gpr := by cases c <;> rfl
@[simp] theorem branch_hi (c : Bool) (a : Addr) : (s.branch c a).hi = s.hi := by cases c <;> rfl
@[simp] theorem branch_lo (c : Bool) (a : Addr) : (s.branch c a).lo = s.lo := by cases c <;> rfl
@[simp] theorem branch_mem (c : Bool) (a : Addr) : (s.branch c a).mem = s.mem := by cases c <;> rfl
@[simp] theorem branch_run (c : Bool) (a : Addr) : (s.branch c a).run = s.run := by cases c <;> rfl
@[simp] theorem branch_console (c : Bool) (a : Addr) : (s.branch c a).console = s.console := by cases c <;> rfl
@[simp] theorem branch_cfg (c : Bool) (a : Addr) : (s.branch c a).cfg = s.cfg := by cases c <;> rfl
@[simp] theorem branch_reg (c : Bool) (a : Addr) (q : Reg) : (s.branch c a).reg q = s.reg q := by cases c <;> rfl
@[simp] theorem branch_memRead (c : Bool) (a b : Addr) : (s.branch c a).memRead b = s.memRead b := by cases c <;> rfl

/-- A hold changes nothing but the console input (R80). -/
theorem hold_cases : s.hold = s ∨
    ∃ e rest, s.console.inp.coming = e :: rest ∧
      s.hold = State.deliver
        { s with console := { s.console with inp := { s.console.inp with coming := rest } } } e := by
  unfold State.hold
  split
  · exact .inl rfl
  · exact .inr ⟨_, _, by assumption, rfl⟩

@[simp] theorem hold_gpr : s.hold.gpr = s.gpr := by unfold State.hold; split <;> rfl
@[simp] theorem hold_hi : s.hold.hi = s.hi := by unfold State.hold; split <;> rfl
@[simp] theorem hold_lo : s.hold.lo = s.lo := by unfold State.hold; split <;> rfl
@[simp] theorem hold_pc : s.hold.pc = s.pc := by unfold State.hold; split <;> rfl
@[simp] theorem hold_mem : s.hold.mem = s.mem := by unfold State.hold; split <;> rfl
@[simp] theorem hold_run : s.hold.run = s.run := by unfold State.hold; split <;> rfl
@[simp] theorem hold_cfg : s.hold.cfg = s.cfg := by unfold State.hold; split <;> rfl
@[simp] theorem hold_reg (q : Reg) : s.hold.reg q = s.reg q := by unfold State.hold; split <;> rfl
@[simp] theorem hold_memRead (b : Addr) : s.hold.memRead b = s.memRead b := by unfold State.hold; split <;> rfl
@[simp] theorem hold_out : s.hold.console.out = s.console.out := by unfold State.hold; split <;> rfl

end Sys2Proof.Machine.State
end

