-- ==== Sys2Proof/Laws/Run.lean ====
section
/-! SUPPORT. What host actions and the turns of a run can do, said once. -/

namespace Sys2Proof.Machine

namespace State

variable (s : State)

@[simp] theorem deliverAll_nil : s.deliverAll [] = s := rfl
@[simp] theorem deliverAll_cons (e : HostEvent) (es : List HostEvent) :
    s.deliverAll (e :: es) = (s.deliver e).deliverAll es := rfl

/-- Host actions change nothing but the console input (R137). -/
theorem deliverAll_eq (es : List HostEvent) :
    s.deliverAll es =
      { s with console := { s.console with inp := es.foldl InputStream.deliver s.console.inp } } := by
  induction es generalizing s with
  | nil => rfl
  | cons e es ih => rw [deliverAll_cons, ih]; rfl

@[simp] theorem deliverAll_pc (es : List HostEvent) : (s.deliverAll es).pc = s.pc := by rw [deliverAll_eq]
@[simp] theorem deliverAll_run (es : List HostEvent) : (s.deliverAll es).run = s.run := by rw [deliverAll_eq]
@[simp] theorem deliverAll_mem (es : List HostEvent) : (s.deliverAll es).mem = s.mem := by rw [deliverAll_eq]
@[simp] theorem deliverAll_cfg (es : List HostEvent) : (s.deliverAll es).cfg = s.cfg := by rw [deliverAll_eq]
@[simp] theorem deliverAll_out (es : List HostEvent) : (s.deliverAll es).console.out = s.console.out := by
  rw [deliverAll_eq]

end State

@[simp] theorem LaunchInput.coming_unbounded (c : Nat → Word) : (LaunchInput.unbounded c).coming = [] := rfl
@[simp] theorem LaunchInput.before_unbounded (c : Nat → Word) (n : Nat) :
    (LaunchInput.unbounded c).before n = [.append [c n]] := rfl

/-- Where the first state of a run comes from: the launch. -/
theorem Launch.run_zero {p : Launch} {s : State} (h : p.run 0 = some (.next s)) : p.start = some s := by
  simpa [Launch.run] using h

/-- Where a later state of a run comes from: a step of the state before it, after what the host did. -/
theorem Launch.run_succ {p : Launch} {n : Nat} {t : State} (h : p.run (n + 1) = some (.next t)) :
    ∃ s, p.run n = some (.next s) ∧ step (s.deliverAll (p.input.before n)) = .next t := by
  simp only [Launch.run, Option.map_eq_some_iff] at h
  obtain ⟨o, ho, h⟩ := h
  cases o with
  | next s => exact ⟨s, ho, h⟩
  | fault r => cases h
  | refused r => cases h

end Sys2Proof.Machine
end

