-- ==== Sys2Proof/Laws/Step.lean ====
section
/-! SUPPORT. What the step and the syscall_mux can do, said once. -/

namespace Sys2Proof.Machine

/-- What a step with a next state did: the core was running, and either `pc` was past the memory or the decoded
instruction ran (R73). -/
theorem step_cases {s t : State} (h : step s = .next t) :
    s.run = .running ∧
      ((s.exhausted = true ∧ t = s.halt .pcExhausted) ∨
        (s.exhausted = false ∧ exec (decode s.fetchWord) s = .next t)) := by
  unfold step loopStep at h
  cases hr : s.run <;> simp only [hr] at h
  case running =>
    refine ⟨rfl, ?_⟩
    unfold runningStep at h
    cases hx : s.exhausted <;> simp only [hx] at h
    · exact .inr ⟨rfl, by simpa using h⟩
    · exact .inl ⟨rfl, by simpa using h.symm⟩
  all_goals cases h

/-- What the step does with the outputs of the syscall_mux: a hold, a fatal end, or the writes and the increment. -/
theorem applyMux_cases (s : State) (o : MuxOut) :
    (o.hold = true ∧ s.applyMux o = s.hold) ∨
      (o.hold = false ∧ ∃ r, o.fatal = some r ∧
        s.applyMux o = State.raiseFatal { s with console := o.console } r) ∨
      (o.hold = false ∧ o.fatal = none ∧ ∃ v, o.r7Write = some v ∧
        s.applyMux o = (State.setReg { s with mem := o.mem, console := o.console } r7 v).retire) ∨
      (o.hold = false ∧ o.fatal = none ∧ o.r7Write = none ∧
        s.applyMux o = State.retire { s with mem := o.mem, console := o.console }) := by
  unfold State.applyMux
  cases o.hold
  · cases o.fatal
    · cases o.r7Write
      · exact .inr (.inr (.inr ⟨rfl, rfl, rfl, rfl⟩))
      · exact .inr (.inr (.inl ⟨rfl, rfl, _, rfl, rfl⟩))
    · exact .inr (.inl ⟨rfl, _, rfl, rfl⟩)
  · exact .inl ⟨rfl, rfl⟩

/-- A read of a line takes it from the front of what had arrived and leaves the rest. -/
theorem splitLine_some {cs l rest : List Word} (h : splitLine cs = some (l, rest)) :
    cs = l ++ lineFeed :: rest ∧ lineFeed ∉ l := by
  induction cs generalizing l with
  | nil => cases h
  | cons c cs ih =>
    simp only [splitLine] at h
    split at h
    · rename_i hc
      cases h
      simp [hc]
    · rename_i hc
      cases hs : splitLine cs with
      | none => simp [hs] at h
      | some p =>
        obtain ⟨l', rest'⟩ := p
        simp only [hs, Option.some.injEq, Prod.mk.injEq] at h
        obtain ⟨rfl, rfl⟩ := h
        obtain ⟨he, hn⟩ := ih hs
        refine ⟨by simp [he], ?_⟩
        simp only [List.mem_cons, not_or]
        exact ⟨fun e => hc e.symm, hn⟩

/-- There is no line in what has arrived exactly when it holds no line feed. -/
theorem splitLine_none {cs : List Word} (h : splitLine cs = none) : lineFeed ∉ cs := by
  induction cs with
  | nil => simp
  | cons c cs ih =>
    simp only [splitLine] at h
    split at h
    · cases h
    · rename_i hc
      cases hs : splitLine cs with
      | some p => simp [hs] at h
      | none =>
        simp only [List.mem_cons, not_or]
        exact ⟨fun e => hc e.symm, ih hs⟩

/-- What the walk of syscall 3 does (R122): it writes valid words that are not 0, and it stops at the end of the
memory, at a zero word, or at the first word that fails `char_valid`. -/
theorem scanString_cases (cfg : Config) (ws : List Word) :
    (∀ c ∈ (scanString cfg ws).1, c ≠ 0 ∧ charValid cfg c = true) ∧
      ((scanString cfg ws = (ws, none)) ∨
        (∃ rest, ws = (scanString cfg ws).1 ++ 0 :: rest ∧ (scanString cfg ws).2 = none) ∨
        (∃ v rest, ws = (scanString cfg ws).1 ++ v :: rest ∧ (scanString cfg ws).2 = some v ∧ v ≠ 0 ∧
          charValid cfg v = false)) := by
  induction ws with
  | nil => simp [scanString]
  | cons w ws ih =>
    by_cases hw : w = 0
    · simp [scanString, hw]
    · by_cases hv : charValid cfg w = true
      · have e : scanString cfg (w :: ws) = (w :: (scanString cfg ws).1, (scanString cfg ws).2) := by
          rw [scanString, if_neg hw, if_neg (by rw [hv]; decide)]
        rw [e]
        obtain ⟨hc, h⟩ := ih
        refine ⟨?_, ?_⟩
        · intro c h
          rcases List.mem_cons.1 h with rfl | h
          · exact ⟨hw, hv⟩
          · exact hc c h
        · obtain h | ⟨rest, h, hn⟩ | ⟨v, rest, h, hn, hz⟩ := h
          · exact .inl (by rw [h])
          · exact .inr (.inl ⟨rest, by rw [List.cons_append, ← h], hn⟩)
          · exact .inr (.inr ⟨v, rest, by rw [List.cons_append, ← h], hn, hz⟩)
      · have hv' : charValid cfg w = false := by simpa using hv
        have e : scanString cfg (w :: ws) = ([], some w) := by
          rw [scanString, if_neg hw, if_pos (by rw [hv']; decide)]
        rw [e]
        exact ⟨by simp, .inr (.inr ⟨w, ws, rfl, rfl, hw, hv'⟩)⟩

end Sys2Proof.Machine
end

