-- ==== Sys2Proof/Tests/Slice0.lean ====
section
/-! SUPPORT. Tests. The expected results are those of spec/95_test_vectors.md (the row is named in each comment), or
are written out from the encodings of spec/30_encoding.md R53. Below them, for each statement with hypotheses, a
concrete state that meets them. -/

namespace Sys2Proof.Tests

open Sys2Proof Sys2Proof.Machine

/-! ### WellFormed: the ill-formed terms are refused -/

theorem test_invalid22_below_range : Instr.check (.invalid22 21) = false := by decide
theorem test_invalid22_above_range : Instr.check (.invalid22 24) = false := by decide
theorem test_invalid24_below_range : Instr.check (.invalid24 23) = false := by decide
theorem test_invalid_in_range : Instr.check (.invalid22 23) = true ∧ Instr.check (.invalid24 31) = true := by decide

/-! ### Decoding: family G, every opcode with all its other bits 1 -/

theorem test_decode_ones_moves_logic :
    decode 0x07FFFFFF = .mov 7 7 ∧ decode 0x0FFFFFFF = .and 7 7 7 ∧ decode 0x17FFFFFF = .or 7 7 7 ∧
    decode 0x1FFFFFFF = .not 7 7 ∧ decode 0x27FFFFFF = .add 7 7 7 ∧ decode 0x2FFFFFFF = .sub 7 7 7 := by decide
theorem test_decode_ones_muldiv :
    decode 0x37FFFFFF = .mul 7 7 ∧ decode 0x3FFFFFFF = .div 7 7 ∧ decode 0x47FFFFFF = .mfhi 7 ∧
    decode 0x4FFFFFFF = .mflo 7 := by decide
theorem test_decode_ones_loadstore :
    decode 0x57FFFFFF = .li 7 0xFFFFFF ∧ decode 0x5FFFFFFF = .lw 255 7 ∧ decode 0x67FFFFFF = .si 255 0x7FFFF ∧
    decode 0x6FFFFFFF = .sw 7 255 := by decide
theorem test_decode_ones_jumps :
    decode 0x77FFFFFF = .j 255 ∧ decode 0x7FFFFFFF = .je 7 7 255 ∧ decode 0x87FFFFFF = .jne 7 7 255 ∧
    decode 0x8FFFFFFF = .jgt 7 7 255 ∧ decode 0x97FFFFFF = .jlt 7 7 255 ∧ decode 0x9FFFFFFF = .jge 7 7 255 ∧
    decode 0xA7FFFFFF = .jle 7 7 255 := by decide
theorem test_decode_ones_syscall : decode 0xAFFFFFFF = .syscall 7 := by decide

/-! ### Decoding: the words of the rules' examples, and family G's other words -/

theorem test_decode_mov : decode 0x02E00000 = .mov 2 7 := by decide
theorem test_decode_and : decode 0x094C0000 = .and 1 2 3 := by decide
theorem test_decode_or : decode 0x12345678 = .or 2 1 5 := by decide
theorem test_decode_not : decode 0x1CA00000 = .not 4 5 := by decide
theorem test_decode_add : decode 0x20280000 = .add 0 1 2 := by decide
theorem test_decode_sub : decode 0x2B940000 = .sub 3 4 5 := by decide
theorem test_decode_mul : decode 0x30200000 = .mul 0 1 := by decide
theorem test_decode_div : decode 0x3A600000 = .div 2 3 := by decide
theorem test_decode_mfhi : decode 0x45000000 = .mfhi 5 := by decide
theorem test_decode_mflo : decode 0x4E000000 = .mflo 6 := by decide
theorem test_decode_li : decode 0x54000000 = .li 4 0 := by decide
theorem test_decode_lw : decode 0x5E430000 = .lw 200 3 := by decide
theorem test_decode_si : decode 0x6327FFFF = .si 100 0x7FFFF := by decide
theorem test_decode_sw : decode 0x6F090000 = .sw 7 9 := by decide
theorem test_decode_j : decode 0x70500000 = .j 10 := by decide
theorem test_decode_je : decode 0x7943C000 = .je 1 2 30 := by decide
theorem test_decode_jne : decode 0x80484000 = .jne 0 2 66 := by decide
theorem test_decode_jgt : decode 0x8943C000 = .jgt 1 2 30 := by decide
theorem test_decode_jlt : decode 0x9147E000 = .jlt 1 2 63 := by decide
theorem test_decode_jge : decode 0x9943C000 = .jge 1 2 30 := by decide
theorem test_decode_jle : decode 0xA143C000 = .jle 1 2 30 := by decide
theorem test_decode_halt : decode 0xA8000000 = .halt := by decide
theorem test_decode_syscall : decode 0xA8800000 = .syscall 0 ∧ decode 0xAD000000 = .syscall 5 := by decide
theorem test_decode_invalid22 : decode 0xB0000000 = .invalid22 22 := by decide
theorem test_decode_invalid24 : decode 0xDEADBEEF = .invalid24 27 ∧ decode 0xF8000000 = .invalid24 31 := by decide
theorem test_decode_table_word : decodeTableWord 32 0x5E430000 = some (.lw 200 3) := by decide

/-! ### Encoding and assembling (R62 to R64) -/

theorem test_encode_add : encode (.add 0 1 2) = 0x20280000 := by decide
theorem test_encode_syscall_zero_is_halt_literal : encode (.syscall 0) = 0xA8000000 := by decide
theorem test_assemble_jne : assemble ⟨.jne, [.reg 0, .reg 2, .num 66]⟩ = some 0x80484000 := by decide
theorem test_assemble_refuses_wide_address : assemble ⟨.j, [.num 256]⟩ = none := by decide
-- The syntax `lw 200, r3` (R97's example), hexadecimal (R98's example), and a register that does not exist
theorem test_assemble_text_lw : assembleText ['l', 'w', ' ', '2', '0', '0', ',', ' ', 'r', '3'] = some 0x5E430000 := by decide
theorem test_assemble_text_si :
    assembleText ['s', 'i', ' ', '1', '0', '0', ',', ' ', '0', 'x', '7', 'F', 'F', 'F', 'F'] = some 0x6327FFFF := by decide
theorem test_assemble_text_refuses_r8 :
    assembleText ['m', 'f', 'h', 'i', ' ', 'r', '8'] = none ∧ assembleText ['.', 'w', 'o', 'r', 'd', ' ', '7'] = some 7 := by
  decide
theorem test_assemble_pseudo : assemble ⟨.halt, []⟩ = some 0xA8000000 ∧ assemble ⟨.nop, []⟩ = some 0 := by decide

/-! ### One step. `at64 w` has the word at 64 and is otherwise reset -/

/-- The reset state with the word at index 64. -/
def at64 (w : Word) : State := { State.reset with mem := Memory.write [] 64 w }

/-- The state with a word at an index. -/
def poke (s : State) (a : Addr) (v : Word) : State := s.memWrite a v

/-- The state with console input. -/
def feed (s : State) (cs : List Word) (ended : Bool) : State :=
  { s with console := { s.console with inp := { arrived := cs, ended := ended, coming := [] } } }

/-- Whether a state has a next state with a property. -/
def after (s : State) (p : State → Bool) : Bool :=
  match step s with
  | .next t => p t
  | .fault _ => false
  | .refused _ => false

-- A2, A4, A5, A7, A8, A13
theorem test_mov : after ((at64 0x02E00000).setReg 2 0x12345678) (fun t => t.reg 7 == 0x12345678 && t.pc == 65) := by decide
theorem test_and_into_source : after (((at64 0x09440000).setReg 1 0xF0F0F0F0).setReg 2 0x0F0F0F0F) (fun t => t.reg 1 == 0) := by decide
theorem test_or : after (((at64 0x114C0000).setReg 1 0xF0F0F0F0).setReg 2 0x0F0F0F0F) (fun t => t.reg 3 == 0xFFFFFFFF) := by decide
theorem test_not_in_place : after ((at64 0x1C800000).setReg 4 0x80000001) (fun t => t.reg 4 == 0x7FFFFFFE) := by decide
theorem test_add_wraps : after (((at64 0x20280000).setReg 0 0xFFFFFFFF).setReg 1 2) (fun t => t.reg 2 == 1 && t.run == .running) := by decide
theorem test_sub_wraps : after (((at64 0x2B940000).setReg 3 3).setReg 4 5) (fun t => t.reg 5 == 0xFFFFFFFE) := by decide
-- B2, B5, B11, B14, B15
theorem test_mul_largest : after (((at64 0x30200000).setReg 0 0xFFFFFFFF).setReg 1 0xFFFFFFFF) (fun t => t.hi == 0xFFFFFFFE && t.lo == 1) := by decide
theorem test_div : after (((at64 0x3A600000).setReg 2 17).setReg 3 5) (fun t => t.lo == 3 && t.hi == 2) := by decide
theorem test_div_by_zero :
    after (((at64 0x3A600000).setReg 2 17).setHiLo 7 9) (fun t =>
      t.hi == 7 && t.lo == 9 && t.pc == 64 && t.run == .fatal (.divideByZero 0x3A600000)) := by decide
theorem test_mfhi : after ((at64 0x45000000).setHiLo 0xAAAA5555 0x12345678) (fun t => t.reg 5 == 0xAAAA5555) := by decide
theorem test_mflo : after ((at64 0x4E000000).setHiLo 0xAAAA5555 0x12345678) (fun t => t.reg 6 == 0x12345678) := by decide
-- C2, C5, C6, C7, C10, C12
theorem test_li_zero_extends : after ((at64 0x57FFFFFF).setReg 7 0xFFFFFFFF) (fun t => t.reg 7 == 0x00FFFFFF) := by decide
theorem test_lw_last : after (poke (at64 0x5FF80000) 255 0x11223344) (fun t => t.reg 0 == 0x11223344) := by decide
theorem test_lw_own_word : after (at64 0x5A010000) (fun t => t.reg 1 == 0x5A010000) := by decide
theorem test_si_largest : after (at64 0x6327FFFF) (fun t => t.memRead 100 == 0x0007FFFF) := by decide
theorem test_sw_last : after ((at64 0x6FFF0000).setReg 7 0x89ABCDEF) (fun t => t.memRead 255 == 0x89ABCDEF) := by decide
theorem test_sw_over_itself : after ((at64 0x6A400000).setReg 2 0x12345678) (fun t => t.memRead 64 == 0x12345678 && t.pc == 65) := by decide
-- D1, D3, D5, D6, D8, D10, D12, D13, D14, D17
theorem test_j : after (at64 0x70500000) (fun t => t.pc == 11) := by decide
theorem test_j_255 : after (at64 0x77F80000) (fun t => t.pc == 256 && t.run == .running) := by decide
theorem test_je_taken : after (((at64 0x7943C000).setReg 1 7).setReg 2 7) (fun t => t.pc == 31) := by decide
theorem test_je_not_taken : after (((at64 0x7943C000).setReg 1 7).setReg 2 8) (fun t => t.pc == 65) := by decide
theorem test_jne : after (((at64 0x8143C000).setReg 1 7).setReg 2 8) (fun t => t.pc == 31) := by decide
theorem test_jgt_unsigned : after (((at64 0x8943C000).setReg 1 0x80000000).setReg 2 0x7FFFFFFF) (fun t => t.pc == 31) := by decide
theorem test_jlt_unsigned : after (((at64 0x9143C000).setReg 1 0xFFFFFFFF).setReg 2 0) (fun t => t.pc == 65) := by decide
theorem test_jge_equal : after (((at64 0x9943C000).setReg 1 7).setReg 2 7) (fun t => t.pc == 31) := by decide
theorem test_jle_greater : after (((at64 0xA143C000).setReg 1 8).setReg 2 7) (fun t => t.pc == 65) := by decide
-- E2, E6, E7, E9, E13, E15, E16
theorem test_syscall0 : after (at64 0xA8000001) (fun t => t.pc == 65 && t.run == .running) := by decide
theorem test_print_int :
    after ((at64 0xA9000000).setReg 7 0xFFFFFFFF) (fun t =>
      t.console.out == [0x34, 0x32, 0x39, 0x34, 0x39, 0x36, 0x37, 0x32, 0x39, 0x35]) := by decide
theorem test_print_char : after ((at64 0xAA000000).setReg 7 0x48) (fun t => t.console.out == [0x48]) := by decide
theorem test_print_surrogate :
    after ((at64 0xAA000000).setReg 7 0xD800) (fun t => t.console.out == [] && t.pc == 64 && t.run == .fatal (.invalidCharacter 0xD800)) := by decide
theorem test_print_string_no_zero :
    after (poke (poke (poke ((at64 0xAB000000).setReg 7 0xFD) 253 0x41) 254 0x42) 255 0x43) (fun t =>
      t.console.out == [0x41, 0x42, 0x43] && t.pc == 65) := by decide
theorem test_print_string_invalid :
    after (poke (poke (poke ((at64 0xAB000000).setReg 7 10) 10 0x4F) 11 0x4B) 12 0x00110000) (fun t =>
      t.console.out == [0x4F, 0x4B] && t.pc == 64 && t.run == .fatal (.invalidCharacter 0x00110000)) := by decide
-- E17, E20, E25, E26
theorem test_read_int :
    after (feed ((at64 0xAC000000).setReg 7 0x63) [0x34, 0x32, 0x0A, 0x37, 0x0A] true) (fun t =>
      t.reg 7 == 42 && t.console.inp.arrived == [0x37, 0x0A] && t.pc == 65) := by decide
theorem test_read_int_too_large :
    after (feed ((at64 0xAC000000).setReg 7 0x63) [0x34, 0x32, 0x39, 0x34, 0x39, 0x36, 0x37, 0x32, 0x39, 0x36, 0x0A] true)
      (fun t => t.reg 7 == 0x63 && t.console.inp.arrived == [] && t.pc == 64 &&
        (match t.run with | .fatal (.parseError _) => true | _ => false)) := by decide
theorem test_read_int_end : after (feed ((at64 0xAC000000).setReg 7 0x63) [] true) (fun t => t.reg 7 == 0x63 && t.pc == 65) := by decide
theorem test_read_int_waits :
    after (feed ((at64 0xAC000000).setReg 7 0x63) [0x31, 0x32] false) (fun t =>
      t == feed ((at64 0xAC000000).setReg 7 0x63) [0x31, 0x32] false) := by decide
-- E28, E29, E32, E35, E37
theorem test_read_char_line_feed :
    after (feed (at64 0xAD000000) [0x0A, 0x58] true) (fun t => t.reg 7 == 0x0A && t.console.inp.arrived == [0x58]) := by decide
theorem test_read_char_end : after (feed (at64 0xAD000000) [] true) (fun t => t.pc == 64 && t.run == .fatal .inputExhausted) := by decide
theorem test_read_line_off_the_end :
    after (feed ((at64 0xAE000000).setReg 7 0xFA) [0x61, 0x62, 0x63, 0x64, 0x65, 0x66, 0x67, 0x68, 0x0A] true) (fun t =>
      t.memRead 250 == 0x61 && t.memRead 255 == 0x66 && t.memRead 0 == 0 && t.console.inp.arrived == []) := by decide
theorem test_read_line_past_memory :
    after (feed ((at64 0xAE000000).setReg 7 300) [0x78, 0x0A, 0x71] true) (fun t =>
      t.mem == (at64 0xAE000000).mem && t.console.inp.arrived == [0x71] && t.pc == 65) := by decide
theorem test_syscall7 : after (at64 0xAF123456) (fun t => t.pc == 64 && t.run == .fatal (.invalidSyscall 7)) := by decide
-- F2, E1, F5, F6, F7
theorem test_invalid_opcode : after (at64 0xFFFFFFFF) (fun t => t.pc == 64 && t.run == .fatal (.invalidOpcode 31)) := by decide
theorem test_invalid_opcode_22 : after (at64 0xB0000000) (fun t => t.run == .fatal (.invalidOpcode 22)) := by decide
theorem test_halt_literal : after (at64 0xA8000000) (fun t => t.pc == 64 && t.run == .halted .haltLiteral) := by decide
theorem test_exhausted : after { State.reset with pc := 0xFFFFFFFF } (fun t => t.pc == 0xFFFFFFFF && t.run == .halted .pcExhausted) := by decide
theorem test_halted_has_no_step : after (State.reset.halt .haltLiteral) (fun _ => true) = false := by decide
theorem test_host_sees_halts_alike :
    (RunState.halted .haltLiteral).hostView = (RunState.halted .pcExhausted).hostView := by decide

/-! ### Launch -/

/-- A launch with an image of two words and input to come. -/
def launch2 : Launch where
  gpr := Vector.replicate 8 5
  hi := 1
  lo := 2
  image := [0x50000005, 0xA8000000]
  background := Vector.replicate 256 0
  input := .finite [0x31, 0x0A] true
  cfg := Config.default

/-- A launch on the unbounded input "0123456789012…": two reads of a character at 64. -/
def launchU : Launch :=
  { launch2 with image := List.replicate 64 0 ++ [0xAD000000, 0xAD000000]
                 input := .unbounded fun n => BitVec.ofNat 32 (0x30 + n % 10) }

/-- Whether a run has a next state after `n` steps, with a property. -/
def runs (p : Launch) (n : Nat) (q : State → Bool) : Bool :=
  match p.run n with
  | some (.next s) => q s
  | _ => false

-- R29, R113: the second step of the run takes the second code point of the sequence
theorem test_unbounded_run :
    runs launchU 2 (fun s => s.pc == 66 && s.reg 7 == 0x31 && s.console.inp.arrived == []) = true := by decide +kernel
theorem test_launch_pc : (launch2.start.map fun s => s.pc) = some 64 := by decide
theorem test_image_of_bytes :
    imageOfBytes .little [0x05, 0x00, 0x00, 0x50] = some [0x50000005] ∧
    imageOfBytes .big [0x50, 0x00, 0x00, 0x05] = some [0x50000005] ∧ imageOfBytes .little [1, 2, 3] = none := by decide
theorem test_host_delivery_ends_wait :
    after { at64 0xAD000000 with console := { out := [], inp := { arrived := [], ended := false, coming := [.append [0x41]] } } }
      (fun t => t.pc == 64 && after t (fun u => u.reg 7 == 0x41 && u.pc == 65)) := by decide
theorem test_fetch_word_runs : after (State.reset.withFetchWord 32 0x50000005) (fun t => t.reg 0 == 5 && t.pc == 65) := by decide

/-! ### Witnesses: for each statement with hypotheses, a concrete input that meets them -/

theorem witness_launch : launch2.image.length ≤ 256 ∧ launch2.start.isSome = true := by decide
theorem witness_launch_too_long : 256 < ({ launch2 with image := List.replicate 257 0 } : Launch).image.length := by
  show 256 < (List.replicate 257 (0 : Word)).length
  rw [List.length_replicate]
  norm_num
theorem witness_launch_input :
    ∃ s, launch2.start = some s ∧
      ∀ cs, HostEvent.append cs ∈ launch2.input.coming → ∀ c ∈ cs, c.toNat ≤ 0x10FFFF :=
  ⟨_, rfl, by simp [launch2, LaunchInput.finite, LaunchInput.coming]⟩
theorem witness_run : runs launchU 1 (fun s => s.run == .running) = true := by decide +kernel
theorem witness_run_ended : runs { launch2 with image := List.replicate 64 0 ++ [0xA8000000] } 1
    (fun s => s.run == .halted .haltLiteral) = true := by decide +kernel
theorem witness_run_input :
    launchU.input = .unbounded (fun n => BitVec.ofNat 32 (0x30 + n % 10)) ∧ launchU.input.coming = [] := ⟨rfl, rfl⟩
theorem witness_run_input_always (n : Nat) :
    ∀ cs, HostEvent.append cs ∈ launchU.input.before n → ∀ c ∈ cs, c.toNat ≤ 0x10FFFF := by
  intro cs h c hc
  simp only [launchU, LaunchInput.before_unbounded, List.mem_singleton, HostEvent.append.injEq] at h
  subst h
  simp only [List.mem_singleton] at hc
  subst hc
  rw [BitVec.toNat_ofNat]
  omega
theorem witness_wellformed : WellFormed (.syscall 0) ∧ WellFormed (.invalid22 23) ∧ WellFormed (.invalid24 24) := by decide
theorem witness_unused_bits :
    (0x214C0000 : Word) ≠ 0xA8000000 ∧ (0x214FFFFF : Word) ≠ 0xA8000000 ∧
    (0x214C0000 : Word) &&& usedMask (fieldOpcode 0x214C0000).toNat = 0x214FFFFF &&& usedMask (fieldOpcode 0x214C0000).toNat := by
  decide
theorem witness_small_word : (0x001FFFFF : Word).toNat < 0x00200000 := by decide
theorem witness_step_runs : (at64 0).run = .running ∧ (at64 0).pc.toNat < 256 := by decide
theorem witness_step_runs_at_255 : ({ at64 0 with pc := 255 } : State).pc.toNat < 256 := by decide
theorem witness_exhausted : 256 ≤ ({ at64 0 with pc := 256 } : State).pc.toNat := by decide
theorem witness_halt_word : (at64 0xA8000000).memRead ((at64 0xA8000000).pc.setWidth 8) = 0xA8000000 := by decide
theorem witness_syscall_zero_word :
    opcodeBits 0xA8000001 = 21 ∧ (0xA8000001 : Word).extractLsb' 24 3 = 0 ∧ (0xA8000001 : Word) ≠ 0xA8000000 := by decide
theorem witness_illegal_word :
    0xB0000000 ≤ ((at64 0xB0000000).memRead ((at64 0xB0000000).pc.setWidth 8)).toNat ∧
    0xB0000000 ≤ ((at64 0xFFFFFFFF).memRead ((at64 0xFFFFFFFF).pc.setWidth 8)).toNat := by decide
theorem witness_ended :
    (State.reset.halt .pcExhausted).run = .halted .pcExhausted ∧
    (State.reset.raiseFatal .inputExhausted).run = .fatal .inputExhausted := by decide
theorem witness_opcodes :
    opcodeBits 0x02E00000 = 0 ∧ opcodeBits 0x094C0000 = 1 ∧ opcodeBits 0x12345678 = 2 ∧ opcodeBits 0x1CA00000 = 3 ∧
    opcodeBits 0x20280000 = 4 ∧ opcodeBits 0x2B940000 = 5 ∧ opcodeBits 0x30200000 = 6 ∧ opcodeBits 0x3A600000 = 7 ∧
    opcodeBits 0x45000000 = 8 ∧ opcodeBits 0x4E000000 = 9 ∧ opcodeBits 0x57FFFFFF = 10 ∧ opcodeBits 0x5E430000 = 11 ∧
    opcodeBits 0x6327FFFF = 12 ∧ opcodeBits 0x6F090000 = 13 ∧ opcodeBits 0x70500000 = 14 := by decide
theorem witness_branch_opcodes :
    opcodeBits 0x7943C000 = 15 ∧ opcodeBits 0x80484000 = 16 ∧ opcodeBits 0x8943C000 = 17 ∧
    opcodeBits 0x9147E000 = 18 ∧ opcodeBits 0x9943C000 = 19 ∧ opcodeBits 0xA143C000 = 20 ∧
    opcodeBits 0xAF123456 = 21 := by decide
theorem witness_divisors : ((at64 0).setReg 3 1).reg 3 ≠ 0 ∧ (at64 0).reg 3 = 0 := by decide
theorem witness_div_step :
    let s := at64 0x3A600000
    s.run = .running ∧ s.pc.toNat < 256 ∧ s.memRead (s.pc.setWidth 8) = 0x3A600000 ∧
    decode 0x3A600000 = .div 2 3 ∧ s.reg 3 = 0 := by decide
theorem witness_hilo_written :
    ∃ t, step (((at64 0x30200000).setReg 0 3).setReg 1 4) = .next t ∧ t.lo ≠ ((at64 0x30200000).setReg 0 3).lo :=
  ⟨_, rfl, by decide⟩
theorem witness_hilo_not_read :
    (∃ t, step (at64 0x20280000) = .next t) ∧
    ∀ d, decode (at64 0x20280000).fetchWord ≠ .mfhi d ∧ decode (at64 0x20280000).fetchWord ≠ .mflo d :=
  ⟨⟨_, rfl⟩, by decide⟩
theorem witness_hilo_both_written :
    (∃ a b, decode (at64 0x30200000).fetchWord = .mul a b ∨ decode (at64 0x30200000).fetchWord = .div a b) ∧
    after (at64 0x30200000) (fun t => t.run == .running) = true :=
  ⟨⟨0, 1, by decide⟩, by decide⟩
theorem witness_memory_wf : Memory.wf (at64 0x6F090000).mem = true := by decide
theorem witness_memory_changes :
    after ((at64 0x6F090000).setReg 7 5) (fun t => t.memRead 9 != (at64 0x6F090000).memRead 9) = true := by decide
theorem witness_store_to_next :
    let s := at64 0x6A410000
    Memory.wf s.mem = true ∧ s.run = .running ∧ s.pc.toNat < 255 ∧
    decode (s.memRead (s.pc.setWidth 8)) = .sw 2 65 ∧ (65 : Addr).toNat = s.pc.toNat + 1 := by decide
theorem witness_si_to_next :
    let s := at64 0x6208BEEF
    Memory.wf s.mem = true ∧ s.run = .running ∧ decode (s.memRead (s.pc.setWidth 8)) = .si 65 0xBEEF ∧
    (65 : Addr).toNat = s.pc.toNat + 1 := by decide
theorem witness_line_to_next :
    let s := feed ((at64 0xAE000000).setReg 7 64) [0x61, 0x62, 0x0A] true
    Memory.wf s.mem = true ∧ s.run = .running ∧ decode (s.memRead (s.pc.setWidth 8)) = .syscall 6 ∧
    s.console.inp.readLine s.cfg.stripCr = .got [0x61, 0x62] [] ∧ (s.reg r7).toNat ≤ (65 : Addr).toNat ∧
    (65 : Addr).toNat < (s.reg r7).toNat + ([0x61, 0x62] : List Word).length := by decide
theorem witness_store_to_last :
    let s := poke { State.reset with pc := 254 } 254 0x6AFF0000
    s.pc.toNat < 255 ∧ decode (s.memRead (s.pc.setWidth 8)) = .sw 2 255 ∧ (255 : Addr).toNat = s.pc.toNat + 1 := by decide
theorem witness_branches :
    let s := ((at64 0).setReg 1 0x80000000).setReg 2 0x7FFFFFFF
    (s.reg 1).toNat > (s.reg 2).toNat ∧ ¬ (s.reg 1).toNat = (s.reg 2).toNat ∧ (s.reg 3).toNat = (s.reg 4).toNat := by decide
theorem witness_decimal_zero : (decimal 0).head? = some 0x30 := by decide
theorem witness_digit_line : parseUint [0x30, 0x30, 0x37] = some 7 ∧ ([0x30, 0x37] : List Word) ≠ [] := by decide
theorem witness_line :
    lineFeed ∉ ([] : List Word) ∧ lineFeed ∉ ([0x31, 0x32] : List Word) ∧
    (feed State.reset [0x31, 0x32, 0x0A, 0x33] false).console.inp.arrived = [0x31, 0x32] ++ lineFeed :: [0x33] := by decide
theorem witness_strip : ([0x31] : List Word).getLast? ≠ some carriageReturn ∧ stripLine true [0x31, 0x0D] = [0x31] := by decide
theorem witness_valid_chars :
    charValid Config.default 0 = true ∧ charValid Config.default 0xD7FF = true ∧ charValid Config.default 0xD800 = false ∧
    charValid Config.default 0xDFFF = false ∧ charValid Config.default 0xE000 = true ∧
    charValid Config.default 0x10FFFF = true ∧ charValid Config.default 0x110000 = false := by decide
theorem witness_string_to_zero :
    let s := poke (poke ((at64 0xAB000000).setReg 7 7) 7 0x48) 8 0x69
    (s.reg r7).toNat + 2 ≤ 256 ∧
    (∀ i < 2, s.memRead (BitVec.ofNat 8 ((s.reg r7).toNat + i)) ≠ 0 ∧
      charValid s.cfg (s.memRead (BitVec.ofNat 8 ((s.reg r7).toNat + i))) = true) ∧
    s.memRead (BitVec.ofNat 8 ((s.reg r7).toNat + 2)) = 0 := by decide
theorem witness_string_to_end :
    let s := poke ((at64 0xAB000000).setReg 7 255) 255 0x43
    (s.reg r7).toNat + 1 = 256 ∧ s.memRead (BitVec.ofNat 8 (s.reg r7).toNat) ≠ 0 := by decide
theorem witness_string_invalid :
    let s := poke ((at64 0xAB000000).setReg 7 10) 10 0x00110000
    (s.reg r7).toNat + 0 < 256 ∧ s.memRead 10 ≠ 0 ∧ charValid s.cfg (s.memRead 10) = false := by decide
theorem witness_string_past_memory : 256 ≤ (((at64 0xAB000000).setReg 7 256).reg r7).toNat := by decide
theorem witness_read_line_results :
    (feed State.reset [] true).console.inp.readLine false = .endOfInput ∧
    (feed State.reset [0x37, 0x0A, 0x71] false).console.inp.readLine false = .got [0x37] [0x71] ∧
    (feed State.reset [0x78] true).console.inp.readLine false = .got [0x78] [] ∧
    parseUint [0x37] = some 7 ∧ parseUint [0x78] = none := by decide
theorem witness_waits :
    lineFeed ∉ (feed State.reset [0x31] false).console.inp.arrived ∧
    (feed State.reset [] false).console.inp.arrived = [] ∧ (feed State.reset [] false).console.inp.ended = false := by decide
theorem witness_syscall_next : ∃ t, exec (.syscall 5) (feed (at64 0) [0x41] false) = .next t := ⟨_, rfl⟩
theorem witness_register_changes :
    after ((at64 0x02E00000).setReg 2 5) (fun t => t.reg 7 != ((at64 0x02E00000).setReg 2 5).reg 7) = true := by decide
theorem witness_output_grows : after ((at64 0xAA000000).setReg 7 0x48) (fun t => t.console.out != []) = true := by decide
theorem witness_input_taken :
    after (feed (at64 0xAD000000) [0x41] false) (fun t => t.console.inp != (feed (at64 0xAD000000) [0x41] false).console.inp) = true ∧
    (feed (at64 0xAD000000) [0x41] false).waits = false := by decide
theorem witness_goes_on : after (at64 0x70500000) (fun t => t.run == .running) = true := by decide
theorem witness_fatal_step : after (at64 0xAF000000) (fun t => t.run == .fatal (.invalidSyscall 7)) = true := by decide
theorem witness_ok_and_step : ∃ t, step (at64 0x20280000) = .next t := ⟨_, rfl⟩
theorem witness_ok : (at64 0x20280000).Ok :=
  ⟨by decide, by decide, by decide, by simp [InputStream.Ok, at64, State.reset], by simp [State.OutputOk, at64, State.reset]⟩
theorem witness_ok_at_256 : ({ at64 0 with pc := 256 } : State).Ok :=
  ⟨by decide, by decide, by decide, by simp [InputStream.Ok, at64, State.reset], by simp [State.OutputOk, at64, State.reset]⟩
theorem witness_delivery :
    (feed (at64 0xAD000000) [0x41] false).console.inp.ended = false ∧ (feed (at64 0xAD000000) [0x41] false).waits = false ∧
    after (feed (at64 0xAD000000) [0x41] false) (fun _ => true) = true := by decide
theorem witness_running : State.reset.run = .running := by decide

end Sys2Proof.Tests
end

/-! Family 10_state: where `pc` starts (R19), and who writes and reads HI and LO (R16). -/

/-! ### What a launch gives, and the two forms of a running step -/

namespace Sys2Proof.Machine

/-- What a launch that gives a state had, and the state it gives (R141). -/
theorem Launch.start_some {p : Launch} {s : State} (h : p.start = some s) :
    p.image.length ≤ memWords ∧
      s = { gpr := p.gpr, hi := p.hi, lo := p.lo, pc := resetPc, mem := p.initMem, run := .running,
            console := { out := [], inp := { arrived := [], ended := false, coming := p.input.coming } },
            cfg := p.cfg } := by
  unfold Launch.start at h
  split at h
  · exact ⟨‹_›, (Option.some.inj h).symm⟩
  · cases h

/-- A step at the end of the memory halts (R74). -/
theorem step_of_exhausted {s : State} (hr : s.run = .running) (hx : s.exhausted = true) :
    step s = .next (s.halt .pcExhausted) := by
  simp [step, loopStep, runningStep, hr, hx]

/-- A step below the end of the memory runs the decoded instruction (R75, R77). -/
theorem step_of_fetched {s : State} (hr : s.run = .running) (hx : s.exhausted = false) :
    step s = exec (decode s.fetchWord) s := by
  simp [step, loopStep, runningStep, hr, hx]

/-! ### Replacing HI and LO, through every operation -/

namespace State

variable (s : State) (h l : Word)

@[simp] theorem setHiLo_self : s.setHiLo s.hi s.lo = s := rfl
@[simp] theorem setHiLo_setHiLo (h' l' : Word) : (s.setHiLo h l).setHiLo h' l' = s.setHiLo h' l' := rfl
@[simp] theorem setHiLo_fetchWord : (s.setHiLo h l).fetchWord = s.fetchWord := rfl
@[simp] theorem setHiLo_exhausted : (s.setHiLo h l).exhausted = s.exhausted := rfl

/-- A jump, taken or not, takes HI and LO along. -/
theorem branch_setHiLo (c : Bool) (a : Addr) :
    (s.setHiLo h l).branch c a = (s.branch c a).setHiLo h l := by
  cases c <;> rfl

/-- A wait takes HI and LO along. -/
theorem hold_setHiLo : (s.setHiLo h l).hold = s.hold.setHiLo h l := by
  unfold State.hold
  rw [setHiLo_console]
  split <;> rfl

/-- The commit of a syscall takes HI and LO along, whatever the syscall_mux answered. -/
theorem applyMux_setHiLo (o : MuxOut) : (s.setHiLo h l).applyMux o = (s.applyMux o).setHiLo h l := by
  unfold State.applyMux
  split
  · exact hold_setHiLo s h l
  · split
    · rfl
    · split <;> rfl

end State

/-- No syscall reads HI or LO (R16). -/
theorem syscallMux_setHiLo (f : BitVec 3) (s : State) (h l : Word) :
    syscallMux f (s.setHiLo h l) = syscallMux f s := rfl

/-! ### Instructions that have nothing to do with HI and LO -/

/-- The instruction neither reads nor writes HI or LO: replacing them before it or after it is the same. -/
def IgnoresHiLo (i : Instr) : Prop :=
  ∀ (s : State) (h l : Word), ∃ t, exec i s = .next t ∧ exec i (s.setHiLo h l) = .next (t.setHiLo h l)

/-- An instruction whose whole meaning is a jump, taken or not as the registers say. -/
theorem ignoresHiLo_of_branch {i : Instr} (taken : State → Bool) (a : Addr)
    (hexec : ∀ s, exec i s = .next (s.branch (taken s) a))
    (htaken : ∀ s h l, taken (s.setHiLo h l) = taken s) : IgnoresHiLo i := fun s h l =>
  ⟨_, hexec s, by rw [hexec, htaken, State.branch_setHiLo]⟩

theorem ignoresHiLo_syscall (f : BitVec 3) : IgnoresHiLo (.syscall f) := fun s h l =>
  ⟨_, rfl, congrArg Host.Outcome.next (s.applyMux_setHiLo h l (syscallMux f s))⟩

/-- R16: every instruction but `mul`, `div`, `mfhi` and `mflo` ignores HI and LO. -/
theorem ignoresHiLo_or_four (i : Instr) :
    IgnoresHiLo i ∨ (∃ a b, i = .mul a b ∨ i = .div a b) ∨ ∃ d, i = .mfhi d ∨ i = .mflo d := by
  cases i with
  | mul a b => exact .inr (.inl ⟨a, b, .inl rfl⟩)
  | div a b => exact .inr (.inl ⟨a, b, .inr rfl⟩)
  | mfhi d => exact .inr (.inr ⟨d, .inl rfl⟩)
  | mflo d => exact .inr (.inr ⟨d, .inr rfl⟩)
  | syscall f => exact .inl (ignoresHiLo_syscall f)
  | je a b m => exact .inl (ignoresHiLo_of_branch _ m (fun _ => rfl) fun _ _ _ => rfl)
  | jne a b m => exact .inl (ignoresHiLo_of_branch _ m (fun _ => rfl) fun _ _ _ => rfl)
  | jgt a b m => exact .inl (ignoresHiLo_of_branch _ m (fun _ => rfl) fun _ _ _ => rfl)
  | jlt a b m => exact .inl (ignoresHiLo_of_branch _ m (fun _ => rfl) fun _ _ _ => rfl)
  | jge a b m => exact .inl (ignoresHiLo_of_branch _ m (fun _ => rfl) fun _ _ _ => rfl)
  | jle a b m => exact .inl (ignoresHiLo_of_branch _ m (fun _ => rfl) fun _ _ _ => rfl)
  | mov | and | or | not | add | sub | li | lw | si | sw | j | halt | invalid22 | invalid24 =>
    exact .inl fun _ _ _ => ⟨_, rfl, rfl⟩

/-- What an instruction that ignores HI and LO does, run on two states that differ only there. -/
theorem IgnoresHiLo.exec_setHiLo {i : Instr} (hign : IgnoresHiLo i) {s t : State} (he : exec i s = .next t)
    (h l : Word) : exec i (s.setHiLo h l) = .next (t.setHiLo h l) := by
  obtain ⟨t', he', hset⟩ := hign s h l
  obtain rfl : t' = t := Host.Outcome.next.inj (he'.symm.trans he)
  exact hset

/-- Replacing HI and LO by themselves shows that such an instruction keeps them. -/
theorem IgnoresHiLo.sameHiLo {i : Instr} (hign : IgnoresHiLo i) {s t : State} (he : exec i s = .next t) :
    SameHiLo s t := by
  have hset : t = t.setHiLo s.hi s.lo := Host.Outcome.next.inj (he.symm.trans (hign.exec_setHiLo he s.hi s.lo))
  exact ⟨by simpa using congrArg State.hi hset, by simpa using congrArg State.lo hset⟩

/-! ### The four instructions of HI and LO -/

/-- `mul` overwrites HI and LO, so it does not matter what they held (R91). -/
theorem exec_mul_setHiLo (a b : Reg) (s : State) (h l : Word) :
    exec (.mul a b) (s.setHiLo h l) = exec (.mul a b) s := rfl

/-- The divide-by-zero signal (R70). -/
theorem divByZero_iff (b : Word) : divByZero b = true ↔ b = 0 := beq_iff_eq

/-- What `div` can do (R92): a divisor of 0 is fatal, any other leaves the remainder and the quotient. -/
theorem exec_div_cases (a b : Reg) (s : State) :
    (s.reg b = 0 ∧ exec (.div a b) s = .next (s.raiseFatal (.divideByZero s.fetchWord))) ∨
      (s.reg b ≠ 0 ∧ exec (.div a b) s =
        .next (s.setHiLo (aluRemainder (s.reg a) (s.reg b)) (aluQuotient (s.reg a) (s.reg b))).retire) := by
  by_cases hb : s.reg b = 0
  · exact .inl ⟨hb, if_pos ((divByZero_iff _).2 hb)⟩
  · exact .inr ⟨hb, if_neg (hb ∘ (divByZero_iff _).1)⟩

/-- A `div` run on two states that differ only in HI and LO: either it fails and keeps them, or it overwrites them and
the next states are the same. -/
theorem exec_div_setHiLo {a b : Reg} {s t : State} (he : exec (.div a b) s = .next t) (h l : Word) :
    (t.run ≠ .running ∧ exec (.div a b) (s.setHiLo h l) = .next (t.setHiLo h l)) ∨
      exec (.div a b) (s.setHiLo h l) = .next t := by
  obtain ⟨hb, hz⟩ | ⟨hb, hq⟩ := exec_div_cases a b s
  · obtain ⟨-, hz'⟩ := (exec_div_cases a b (s.setHiLo h l)).resolve_right fun hne => hne.1 hb
    obtain rfl := Host.Outcome.next.inj (hz.symm.trans he)
    exact .inl ⟨nofun, hz'⟩
  · obtain ⟨-, hq'⟩ := (exec_div_cases a b (s.setHiLo h l)).resolve_left fun heq => hb heq.1
    exact .inr (hq'.trans (hq.symm.trans he))

/-- Every instruction but `mul` and `div` keeps HI and LO. -/
theorem exec_sameHiLo {i : Instr} (hw : ¬ ∃ a b, i = .mul a b ∨ i = .div a b) {s t : State}
    (he : exec i s = .next t) : SameHiLo s t := by
  obtain hign | hmd | ⟨d, rfl | rfl⟩ := ignoresHiLo_or_four i
  · exact hign.sameHiLo he
  · exact absurd hmd hw
  all_goals
    obtain rfl := Host.Outcome.next.inj he
    exact ⟨rfl, rfl⟩

/-- Every instruction but `mfhi` and `mflo`, run on two states that differ only in HI and LO: either the next states
differ only there, by the same values, and the instruction is no `mul` or `div` that goes on; or they are equal. -/
theorem exec_setHiLo_cases {i : Instr} (hr : ∀ d, i ≠ .mfhi d ∧ i ≠ .mflo d) {s t : State}
    (he : exec i s = .next t) (h l : Word) :
    (exec i (s.setHiLo h l) = .next (t.setHiLo h l) ∧
        ((∃ a b, i = .mul a b ∨ i = .div a b) → t.run ≠ .running)) ∨
      exec i (s.setHiLo h l) = .next t := by
  by_cases hw : ∃ a b, i = .mul a b ∨ i = .div a b
  · obtain ⟨a, b, rfl | rfl⟩ := hw
    · exact .inr he
    · exact (exec_div_setHiLo he h l).imp_left fun ⟨hf, he'⟩ => ⟨he', fun _ => hf⟩
  · obtain hign | hmd | ⟨d, hd⟩ := ignoresHiLo_or_four i
    · exact .inl ⟨hign.exec_setHiLo he h l, fun hmd => absurd hmd hw⟩
    · exact absurd hmd hw
    · exact (hd.elim (hr d).1 (hr d).2).elim

/-! ### The same for a step -/

/-- A step that does not run `mul` or `div` keeps HI and LO. -/
theorem step_sameHiLo {s t : State} (hs : step s = .next t)
    (hw : ¬ ∃ a b, decode s.fetchWord = .mul a b ∨ decode s.fetchWord = .div a b) : SameHiLo s t := by
  obtain ⟨-, ⟨-, rfl⟩ | ⟨-, he⟩⟩ := step_cases hs
  · exact ⟨rfl, rfl⟩
  · exact exec_sameHiLo hw he

/-- The step that does not run `mfhi` or `mflo`, on two states that differ only in HI and LO. -/
theorem step_setHiLo_cases {s t : State} (hs : step s = .next t)
    (hr : ∀ d, decode s.fetchWord ≠ .mfhi d ∧ decode s.fetchWord ≠ .mflo d) (h l : Word) :
    (step (s.setHiLo h l) = .next (t.setHiLo h l) ∧
        ((∃ a b, decode s.fetchWord = .mul a b ∨ decode s.fetchWord = .div a b) → t.run ≠ .running)) ∨
      step (s.setHiLo h l) = .next t := by
  obtain ⟨hrun, ⟨hx, rfl⟩ | ⟨hx, he⟩⟩ := step_cases hs
  · exact .inl ⟨step_of_exhausted (by simpa) (by simpa), fun _ => nofun⟩
  · rw [step_of_fetched (by simpa) (by simpa), State.setHiLo_fetchWord]
    exact exec_setHiLo_cases hr he h l

end Sys2Proof.Machine

/-! ### The obligations -/

namespace Sys2Proof.Proofs

open Sys2Proof.Machine

/-- Settles O1: `Launch.start` sets `pc` itself, for every value of the parameters. -/
theorem resetStartsAt64 : Obligations.ResetStartsAt64 := by
  refine ⟨rfl, fun p s h => ?_⟩
  obtain ⟨-, rfl⟩ := Launch.start_some h
  rfl

/-- Settles O21: all but four instructions commute with replacing HI and LO, and `mul` and a `div` that completes
overwrite them. -/
theorem hiLoBelongToTheirFourInstructions : Obligations.HiLoBelongToTheirFourInstructions := by
  refine ⟨fun s t hs hne => ?_, fun s t h l hs hr => ?_, fun s d h l => ⟨⟨_, rfl, ?_⟩, ⟨_, rfl, ?_⟩⟩⟩
  · by_contra hw
    obtain ⟨hhi, hlo⟩ := step_sameHiLo hs hw
    exact hne.elim (· hhi) (· hlo)
  · obtain ⟨hs', hstop⟩ | hs' := step_setHiLo_cases hs hr h l
    · exact ⟨_, hs', by simp, fun hw hrun => absurd hrun (hstop hw)⟩
    · exact ⟨t, hs', t.setHiLo_self, fun _ _ => ⟨rfl, rfl⟩⟩
  · simp
  · simp

end Sys2Proof.Proofs

/-! Family 30_encoding: the one word that is the halt literal (R58, R76). -/

/-! ### What `decode` answers for the halt literal and for the other words of opcode 21 -/

namespace Sys2Proof

/-- The dispatch on the opcode never answers the halt literal: only the comparison of the whole word does (R58). -/
theorem decodeOpcode_ne_halt (w : Word) : decodeOpcode w ≠ .halt := by
  unfold decodeOpcode
  split <;> nofun

/-- R58: one word and no other is the halt literal. -/
theorem decode_eq_halt_iff (w : Word) : decode w = .halt ↔ w = haltWord := by
  unfold decode
  split
  · exact iff_of_true rfl ‹_›
  · exact iff_of_false (decodeOpcode_ne_halt w) ‹_›

/-- R58: a word of opcode 21 that is not the halt literal is the syscall of its `func` field. -/
theorem decode_eq_syscall {w : Word} (hw : w ≠ haltWord) (hop : (fieldOpcode w).toNat = 21) :
    decode w = .syscall (fieldRa w) := by
  rw [decode, if_neg hw]
  simp [decodeOpcode, hop]

end Sys2Proof

/-! ### The opcode as the statements read it, a `pc` inside the memory, and the frame of a halt -/

namespace Sys2Proof.Machine

/-- The decoder's opcode field is the slice that the statements speak of (R51). -/
theorem toNat_fieldOpcode (w : Word) : (fieldOpcode w).toNat = opcodeBits w :=
  congrArg BitVec.toNat (field_eq_extract 5 5 w)

/-- A `pc` below 256 passes the exhaustion test (R74). -/
theorem State.exhausted_eq_false {s : State} (hpc : s.pc.toNat < 256) : s.exhausted = false :=
  decide_eq_false (Nat.not_le.2 hpc)

/-- A halt writes the run state alone (R74, R76). -/
theorem State.onlyRunChanges_halt (s : State) (c : HaltCause) : OnlyRunChanges s (s.halt c) :=
  ⟨s.halt_reg c, ⟨rfl, rfl⟩, s.halt_memRead c, rfl, rfl, rfl⟩

end Sys2Proof.Machine

namespace Sys2Proof.Proofs

open Sys2Proof.Machine

/-- Settles O12: `decode` compares the whole word before it looks at the opcode, and `halt` writes the run state
alone. -/
theorem haltLiteralHalts : Obligations.HaltLiteralHalts := by
  refine ⟨decode_eq_halt_iff, fun w hop hfunc hw => ?_,
    fun s => ⟨s.halt .haltLiteral, rfl, rfl, s.onlyRunChanges_halt _⟩, fun s hrun hpc hfetch => ?_⟩
  · have hra : fieldRa w = 0 := (field_eq_extract 8 3 w).trans hfunc
    rw [decode_eq_syscall hw ((toNat_fieldOpcode w).trans hop), hra]
  · have hdec : decode s.fetchWord = .halt := (decode_eq_halt_iff _).2 hfetch
    rw [step_of_fetched hrun (State.exhausted_eq_false hpc), hdec]

end Sys2Proof.Proofs

/-! Family 40_execution_loop: the exhausted `pc` (R74). -/

namespace Sys2Proof.Machine

/-- A `pc` of 256 or more, as an unsigned 32-bit number, fails the exhaustion test (R74). -/
theorem State.exhausted_eq_true {s : State} (hpc : 256 ≤ s.pc.toNat) : s.exhausted = true :=
  decide_eq_true hpc

end Sys2Proof.Machine

namespace Sys2Proof.Proofs

open Sys2Proof.Machine

/-- Settles O11: the exhaustion test comes before the fetch, so the step is a halt whatever memory holds. -/
theorem pcExhaustionHalts : Obligations.PcExhaustionHalts := fun s hrun hpc =>
  ⟨s.halt .pcExhausted, step_of_exhausted hrun (State.exhausted_eq_true hpc), s.halt_run _, s.onlyRunChanges_halt _⟩

end Sys2Proof.Proofs

/-! Family 41_logic_arith: `mov`, `and`, `or`, `not`, `add` and `sub` (R84 to R89). -/

namespace Sys2Proof.Machine

/-! ### Decoding a word by its opcode bits -/

/-- The halt literal has opcode 21, so a word of any other opcode goes to the dispatch (R58, R77). -/
theorem decode_eq_decodeOpcode {w : Word} (hop : opcodeBits w ≠ 21) : decode w = decodeOpcode w := by
  have hw : w ≠ haltWord := by
    rintro rfl
    exact hop (by decide)
  exact if_neg hw

@[simp] theorem ofField_fieldRa (w : Word) : Reg.ofField (fieldRa w) = regBits w 24 :=
  congrArg Reg.ofField (field_eq_extract 8 3 w)

@[simp] theorem ofField_fieldRb (w : Word) : Reg.ofField (fieldRb w) = regBits w 21 :=
  congrArg Reg.ofField (field_eq_extract 11 3 w)

@[simp] theorem ofField_fieldRc (w : Word) : Reg.ofField (fieldRc w) = regBits w 18 :=
  congrArg Reg.ofField (field_eq_extract 14 3 w)

section
variable {w : Word}

theorem decode_eq_mov (hop : opcodeBits w = 0) : decode w = .mov (regBits w 24) (regBits w 21) := by
  simp [decode_eq_decodeOpcode, decodeOpcode, toNat_fieldOpcode, hop]

theorem decode_eq_and (hop : opcodeBits w = 1) :
    decode w = .and (regBits w 24) (regBits w 21) (regBits w 18) := by
  simp [decode_eq_decodeOpcode, decodeOpcode, toNat_fieldOpcode, hop]

theorem decode_eq_or (hop : opcodeBits w = 2) :
    decode w = .or (regBits w 24) (regBits w 21) (regBits w 18) := by
  simp [decode_eq_decodeOpcode, decodeOpcode, toNat_fieldOpcode, hop]

theorem decode_eq_not (hop : opcodeBits w = 3) : decode w = .not (regBits w 24) (regBits w 21) := by
  simp [decode_eq_decodeOpcode, decodeOpcode, toNat_fieldOpcode, hop]

theorem decode_eq_add (hop : opcodeBits w = 4) :
    decode w = .add (regBits w 24) (regBits w 21) (regBits w 18) := by
  simp [decode_eq_decodeOpcode, decodeOpcode, toNat_fieldOpcode, hop]

theorem decode_eq_sub (hop : opcodeBits w = 5) :
    decode w = .sub (regBits w 24) (regBits w 21) (regBits w 18) := by
  simp [decode_eq_decodeOpcode, decodeOpcode, toNat_fieldOpcode, hop]

end

/-! ### A handler that writes one register -/

namespace State

/-- The register written reads back after the increment (R69, R78). -/
theorem reg_retire_setReg (s : State) (d : Reg) (v : Word) : (s.setReg d v).retire.reg d = v := by
  simp

/-- A register write and the increment leave everything else alone (R81). -/
theorem onlyRegChanges_retire_setReg (s : State) (d : Reg) (v : Word) :
    OnlyRegChanges d s (s.setReg d v).retire :=
  ⟨fun r hr => by simp [hr], ⟨rfl, rfl⟩, fun _ => rfl, ⟨rfl, rfl, rfl⟩, rfl⟩

end State

/-! ### The alu's results as the rules write them -/

section
variable (a b : Word)

theorem getLsbD_aluAnd (i : Nat) : (aluAnd a b).getLsbD i = (a.getLsbD i && b.getLsbD i) :=
  BitVec.getLsbD_and

theorem getLsbD_aluOr (i : Nat) : (aluOr a b).getLsbD i = (a.getLsbD i || b.getLsbD i) :=
  BitVec.getLsbD_or

theorem toNat_aluNot : (aluNot a).toNat = 0xFFFFFFFF - a.toNat :=
  BitVec.toNat_not

theorem toNat_aluAdd : (aluAdd a b).toNat = (a.toNat + b.toNat) % 2 ^ 32 :=
  BitVec.toNat_add a b

/-- The library adds the complement of `b` first; the rule subtracts last, and neither difference is cut off at 0. -/
theorem toNat_aluSub : (aluSub a b).toNat = (a.toNat + 2 ^ 32 - b.toNat) % 2 ^ 32 := by
  have hb : b.toNat < 2 ^ 32 := b.isLt
  have hcomm : 2 ^ 32 - b.toNat + a.toNat = a.toNat + 2 ^ 32 - b.toNat := by omega
  rw [aluSub, BitVec.toNat_sub, hcomm]

end

end Sys2Proof.Machine

namespace Sys2Proof.Proofs

open Sys2Proof.Machine

/-- Settles O16: each handler is one register write of the alu's result, read off before the write, so aliasing of
source and destination does not matter. -/
theorem moveAndLogicResults : Obligations.MoveAndLogicResults := by
  refine ⟨fun w => ⟨decode_eq_mov, decode_eq_and, decode_eq_or, decode_eq_not⟩, fun s a b d => ⟨?_, ?_, ?_, ?_⟩⟩
  · exact ⟨_, rfl, s.reg_retire_setReg d _, s.onlyRegChanges_retire_setReg d _⟩
  · exact ⟨_, rfl, s.onlyRegChanges_retire_setReg d _, fun i _ => by rw [s.reg_retire_setReg, getLsbD_aluAnd]⟩
  · exact ⟨_, rfl, s.onlyRegChanges_retire_setReg d _, fun i _ => by rw [s.reg_retire_setReg, getLsbD_aluOr]⟩
  · exact ⟨_, rfl, s.onlyRegChanges_retire_setReg d _, by rw [s.reg_retire_setReg, toNat_aluNot]⟩

/-- Settles O17: each handler is one register write of the alu's sum or difference, which wrap by themselves. -/
theorem addAndSubWrap : Obligations.AddAndSubWrap := by
  refine ⟨fun w => ⟨decode_eq_add, decode_eq_sub⟩, fun s a b d => ⟨?_, ?_⟩⟩
  · exact ⟨_, rfl, s.onlyRegChanges_retire_setReg d _, by rw [s.reg_retire_setReg, toNat_aluAdd]⟩
  · exact ⟨_, rfl, s.onlyRegChanges_retire_setReg d _, by rw [s.reg_retire_setReg, toNat_aluSub]⟩

end Sys2Proof.Proofs

/-! Family 42_muldiv_hilo: `mul`, `div`, `mfhi` and `mflo` (R91 to R94). -/

namespace Sys2Proof.Machine

/-! ### The words of opcodes 6 to 9 -/

section
variable {w : Word}

theorem decode_eq_mul (hop : opcodeBits w = 6) : decode w = .mul (regBits w 24) (regBits w 21) := by
  simp [decode_eq_decodeOpcode, decodeOpcode, toNat_fieldOpcode, hop]

theorem decode_eq_div (hop : opcodeBits w = 7) : decode w = .div (regBits w 24) (regBits w 21) := by
  simp [decode_eq_decodeOpcode, decodeOpcode, toNat_fieldOpcode, hop]

theorem decode_eq_mfhi (hop : opcodeBits w = 8) : decode w = .mfhi (regBits w 24) := by
  simp [decode_eq_decodeOpcode, decodeOpcode, toNat_fieldOpcode, hop]

theorem decode_eq_mflo (hop : opcodeBits w = 9) : decode w = .mflo (regBits w 24) := by
  simp [decode_eq_decodeOpcode, decodeOpcode, toNat_fieldOpcode, hop]

end

/-! ### The frames of a HI/LO write and of a fatal end -/

namespace State

/-- A write of HI and LO and the increment leave everything else alone (R81). -/
theorem onlyHiLoChange_retire_setHiLo (s : State) (h l : Word) : OnlyHiLoChange s (s.setHiLo h l).retire :=
  ⟨s.setHiLo_reg h l, s.setHiLo_memRead h l, ⟨rfl, rfl, rfl⟩, rfl⟩

/-- A fatal end writes the run state alone (R128). -/
theorem onlyRunChanges_raiseFatal (s : State) (r : FatalReason) : OnlyRunChanges s (s.raiseFatal r) :=
  ⟨s.raiseFatal_reg r, ⟨rfl, rfl⟩, s.raiseFatal_memRead r, rfl, rfl, rfl⟩

end State

/-! ### The alu's product, quotient and remainder as numbers -/

/-- The two halves of a 64-bit product, put together again, are the product (R91). -/
theorem productHi_mul_add_productLo (p : BitVec 64) :
    (productHi p).toNat * 2 ^ 32 + (productLo p).toNat = p.toNat := by
  have hp : p.toNat < 2 ^ 64 := p.isLt
  have hhi : (productHi p).toNat = p.toNat / 2 ^ 32 := by
    rw [productHi, BitVec.extractLsb'_toNat, Nat.shiftRight_eq_div_pow]
    exact Nat.mod_eq_of_lt (by omega)
  have hlo : (productLo p).toNat = p.toNat % 2 ^ 32 := by
    rw [productLo, BitVec.extractLsb'_toNat, Nat.shiftRight_zero]
  rw [hhi, hlo]
  exact Nat.div_add_mod' _ _

section
variable (a b : Word)

/-- The product of two 32-bit numbers is below 2^64, so 64 bits hold it exactly (R91). -/
theorem toNat_aluMul : (aluMul a b).toNat = a.toNat * b.toNat := by
  have hlt : a.toNat * b.toNat < 2 ^ 32 * 2 ^ 32 := Nat.mul_lt_mul'' a.isLt b.isLt
  rw [aluMul, BitVec.toNat_mul, BitVec.toNat_setWidth_of_le (by decide), BitVec.toNat_setWidth_of_le (by decide)]
  exact Nat.mod_eq_of_lt hlt

theorem toNat_aluQuotient : (aluQuotient a b).toNat = a.toNat / b.toNat :=
  BitVec.toNat_udiv

theorem toNat_aluRemainder : (aluRemainder a b).toNat = a.toNat % b.toNat :=
  BitVec.toNat_umod

end

/-! ### `div` for each kind of divisor -/

section
variable {s : State} {a b : Reg}

/-- R92: with a divisor of 0, `div` is fatal and records the word at `pc`. -/
theorem exec_div_of_eq_zero (hb : s.reg b = 0) :
    exec (.div a b) s = .next (s.raiseFatal (.divideByZero s.fetchWord)) :=
  ((exec_div_cases a b s).resolve_right fun ⟨hne, _⟩ => hne hb).2

/-- R92: with any other divisor, `div` leaves the remainder in HI and the quotient in LO. -/
theorem exec_div_of_ne_zero (hb : s.reg b ≠ 0) : exec (.div a b) s =
    .next (s.setHiLo (aluRemainder (s.reg a) (s.reg b)) (aluQuotient (s.reg a) (s.reg b))).retire :=
  ((exec_div_cases a b s).resolve_left fun ⟨heq, _⟩ => hb heq).2

end

end Sys2Proof.Machine

namespace Sys2Proof.Proofs

open Sys2Proof.Machine

/-- Settles O18: the handler writes the two halves of the alu's product, which 64 bits hold exactly. -/
theorem mulIsTheExactProduct : Obligations.MulIsTheExactProduct := by
  refine ⟨fun w => decode_eq_mul, fun s a b => ⟨_, rfl, s.onlyHiLoChange_retire_setHiLo _ _, ?_⟩⟩
  exact (productHi_mul_add_productLo _).trans (toNat_aluMul _ _)

/-- Settles O19: the divisor alone decides between the HI/LO write and the fatal end; a step fetches the word that the
fatal end records. -/
theorem divGivesQuotientAndRemainder : Obligations.DivGivesQuotientAndRemainder := by
  refine ⟨fun w => decode_eq_div, fun s a b => ⟨fun hb => ?_, fun hb => ?_, fun w hrun hpc hfetch hdec hb => ?_⟩⟩
  · exact ⟨_, exec_div_of_ne_zero hb, s.onlyHiLoChange_retire_setHiLo _ _, toNat_aluQuotient _ _,
      toNat_aluRemainder _ _⟩
  · exact ⟨_, s.fetchWord, exec_div_of_eq_zero hb, s.onlyRunChanges_raiseFatal _, s.raiseFatal_run _⟩
  · have hword : s.fetchWord = w := hfetch
    have hstep : step s = .next (s.raiseFatal (.divideByZero w)) := by
      rw [step_of_fetched hrun (State.exhausted_eq_false hpc), hword, hdec, exec_div_of_eq_zero hb, hword]
    exact ⟨_, hstep, s.onlyRunChanges_raiseFatal _, s.raiseFatal_run _⟩

/-- Settles O20: each handler is one register write of HI or LO. -/
theorem movesFromHiAndLo : Obligations.MovesFromHiAndLo := by
  refine ⟨fun w => ⟨decode_eq_mfhi, decode_eq_mflo⟩, fun s d => ⟨?_, ?_⟩⟩
  · exact ⟨_, rfl, s.reg_retire_setReg d _, s.onlyRegChanges_retire_setReg d _⟩
  · exact ⟨_, rfl, s.reg_retire_setReg d _, s.onlyRegChanges_retire_setReg d _⟩

end Sys2Proof.Proofs

/-! Family 43_load_store_imm: `li`, `lw`, `si` and `sw` (R96 to R99). -/

namespace Sys2Proof.Machine

/-! ### The words of opcodes 10 to 13 -/

section
variable (w : Word)

@[simp] theorem ofField_fieldRl : Reg.ofField (fieldRl w) = regBits w 16 :=
  congrArg Reg.ofField (field_eq_extract 16 3 w)

@[simp] theorem fieldM1_eq_addrBits : fieldM1 w = addrBits w 19 :=
  field_eq_extract 13 8 w

@[simp] theorem fieldM2_eq_addrBits : fieldM2 w = addrBits w 16 :=
  field_eq_extract 16 8 w

@[simp] theorem fieldImm24_eq_extract : fieldImm24 w = w.extractLsb' 0 24 :=
  field_eq_extract 32 24 w

@[simp] theorem fieldImm19_eq_extract : fieldImm19 w = w.extractLsb' 0 19 :=
  field_eq_extract 32 19 w

end

section
variable {w : Word}

theorem decode_eq_li (hop : opcodeBits w = 10) : decode w = .li (regBits w 24) (w.extractLsb' 0 24) := by
  simp [decode_eq_decodeOpcode, decodeOpcode, toNat_fieldOpcode, hop]

theorem decode_eq_lw (hop : opcodeBits w = 11) : decode w = .lw (addrBits w 19) (regBits w 16) := by
  simp [decode_eq_decodeOpcode, decodeOpcode, toNat_fieldOpcode, hop]

theorem decode_eq_si (hop : opcodeBits w = 12) : decode w = .si (addrBits w 19) (w.extractLsb' 0 19) := by
  simp [decode_eq_decodeOpcode, decodeOpcode, toNat_fieldOpcode, hop]

theorem decode_eq_sw (hop : opcodeBits w = 13) : decode w = .sw (regBits w 24) (addrBits w 16) := by
  simp [decode_eq_decodeOpcode, decodeOpcode, toNat_fieldOpcode, hop]

end

/-! ### The immediates as numbers -/

/-- `li` zero-extends: the word has the value of the 24 bits (R96). -/
theorem toNat_immLi (n : BitVec 24) : (immLi n).toNat = n.toNat :=
  BitVec.toNat_setWidth_of_le (by decide)

/-- `si` zero-extends: the word has the value of the 19 bits (R98). -/
theorem toNat_immSi (n : BitVec 19) : (immSi n).toNat = n.toNat :=
  BitVec.toNat_setWidth_of_le (by decide)

/-! ### A handler that writes one word of memory -/

namespace State

/-- What a word reads as after a write to a memory in canonical form (R39). -/
theorem memRead_memWrite {s : State} (hwf : Memory.wf s.mem = true) (a : Addr) (v : Word) (b : Addr) :
    (s.memWrite a v).memRead b = if b = a then v else s.memRead b :=
  Memory.read_write a v b hwf

/-- The word written reads back after the increment (R39, R78). -/
theorem memRead_retire_memWrite {s : State} (hwf : Memory.wf s.mem = true) (a : Addr) (v : Word) :
    (s.memWrite a v).retire.memRead a = v := by
  rw [retire_memRead, memRead_memWrite hwf, if_pos rfl]

/-- A memory write and the increment leave every other word and everything else alone (R81). -/
theorem onlyWordChanges_retire_memWrite {s : State} (hwf : Memory.wf s.mem = true) (a : Addr) (v : Word) :
    OnlyWordChanges a s (s.memWrite a v).retire := by
  have hmem : SameMemoryBut a s (s.memWrite a v).retire := fun b hb => by
    rw [retire_memRead, memRead_memWrite hwf, if_neg hb]
  exact ⟨s.memWrite_reg a v, ⟨rfl, rfl⟩, hmem, ⟨rfl, rfl, rfl⟩, rfl⟩

end State

end Sys2Proof.Machine

namespace Sys2Proof.Proofs

open Sys2Proof.Machine

/-- Settles O22: each handler is one register write, of the zero-extended immediate or of the word at the address. -/
theorem loadsWriteTheirRegister : Obligations.LoadsWriteTheirRegister := by
  refine ⟨fun w => ⟨decode_eq_li, decode_eq_lw⟩, fun s d n a => ⟨?_, ?_⟩⟩
  · exact ⟨_, rfl, by rw [s.reg_retire_setReg, toNat_immLi], s.onlyRegChanges_retire_setReg d _⟩
  · exact ⟨_, rfl, s.reg_retire_setReg d _, s.onlyRegChanges_retire_setReg d _⟩

/-- Settles O23: each handler is one memory write; in canonical form it reads back and leaves every other word
alone. -/
theorem storesWriteOneWord : Obligations.StoresWriteOneWord := by
  refine ⟨fun w => ⟨decode_eq_si, decode_eq_sw⟩, fun s r n a hwf => ⟨?_, ?_⟩⟩
  · exact ⟨_, rfl, by rw [State.memRead_retire_memWrite hwf, toNat_immSi],
      State.onlyWordChanges_retire_memWrite hwf _ _⟩
  · exact ⟨_, rfl, State.memRead_retire_memWrite hwf _ _, State.onlyWordChanges_retire_memWrite hwf _ _⟩

end Sys2Proof.Proofs

/-! Family 44_control_transfer: `j` and the six branches (R103 to R109). -/

namespace Sys2Proof.Machine

/-! ### The words of opcodes 14 to 20 -/

@[simp] theorem fieldM3_eq_addrBits (w : Word) : fieldM3 w = addrBits w 13 :=
  field_eq_extract 19 8 w

section
variable {w : Word}

theorem decode_eq_j (hop : opcodeBits w = 14) : decode w = .j (addrBits w 19) := by
  simp [decode_eq_decodeOpcode, decodeOpcode, toNat_fieldOpcode, hop]

theorem decode_eq_je (hop : opcodeBits w = 15) :
    decode w = .je (regBits w 24) (regBits w 21) (addrBits w 13) := by
  simp [decode_eq_decodeOpcode, decodeOpcode, toNat_fieldOpcode, hop]

theorem decode_eq_jne (hop : opcodeBits w = 16) :
    decode w = .jne (regBits w 24) (regBits w 21) (addrBits w 13) := by
  simp [decode_eq_decodeOpcode, decodeOpcode, toNat_fieldOpcode, hop]

theorem decode_eq_jgt (hop : opcodeBits w = 17) :
    decode w = .jgt (regBits w 24) (regBits w 21) (addrBits w 13) := by
  simp [decode_eq_decodeOpcode, decodeOpcode, toNat_fieldOpcode, hop]

theorem decode_eq_jlt (hop : opcodeBits w = 18) :
    decode w = .jlt (regBits w 24) (regBits w 21) (addrBits w 13) := by
  simp [decode_eq_decodeOpcode, decodeOpcode, toNat_fieldOpcode, hop]

theorem decode_eq_jge (hop : opcodeBits w = 19) :
    decode w = .jge (regBits w 24) (regBits w 21) (addrBits w 13) := by
  simp [decode_eq_decodeOpcode, decodeOpcode, toNat_fieldOpcode, hop]

theorem decode_eq_jle (hop : opcodeBits w = 20) :
    decode w = .jle (regBits w 24) (regBits w 21) (addrBits w 13) := by
  simp [decode_eq_decodeOpcode, decodeOpcode, toNat_fieldOpcode, hop]

end

/-! ### The alu's conditions as comparisons of numbers (R102) -/

section
variable {a b : Word}

theorem condEq_iff : condEq a b = true ↔ a.toNat = b.toNat :=
  beq_iff_eq.trans BitVec.toNat_inj.symm

theorem condNe_iff : condNe a b = true ↔ a.toNat ≠ b.toNat :=
  bne_iff_ne.trans BitVec.toNat_inj.symm.not

theorem condGtu_iff : condGtu a b = true ↔ a.toNat > b.toNat :=
  decide_eq_true_iff

theorem condLtu_iff : condLtu a b = true ↔ a.toNat < b.toNat :=
  decide_eq_true_iff

theorem condGeu_iff : condGeu a b = true ↔ a.toNat ≥ b.toNat :=
  decide_eq_true_iff

theorem condLeu_iff : condLeu a b = true ↔ a.toNat ≤ b.toNat :=
  decide_eq_true_iff

end

/-! ### Where a branch goes, and its frame -/

namespace State

/-- R101: the target has eight bits, so the increment of the 32-bit `pc` does not wrap. -/
theorem toNat_pc_branch_true (s : State) (a : Addr) : (s.branch true a).pc.toNat = a.toNat + 1 := by
  have hlt : a.toNat + 1 < 2 ^ 32 := by omega
  rw [branch_pc, if_pos rfl, BitVec.toNat_add, BitVec.toNat_setWidth_of_le (by decide)]
  exact Nat.mod_eq_of_lt hlt

/-- A branch, taken or not, writes `pc` alone (R81). -/
theorem onlyPcChanges_branch (s : State) (c : Bool) (a : Addr) : OnlyPcChanges s (s.branch c a) :=
  ⟨s.branch_reg c a, ⟨s.branch_hi c a, s.branch_lo c a⟩, s.branch_memRead c a,
    s.branch_console c a, s.branch_run c a, s.branch_cfg c a⟩

end State

/-- An instruction whose meaning is a branch on a condition that says `taken` lands at the target plus one or at the
next word as `taken` says, and changes nothing else (R101). -/
theorem exec_branch_lands {i : Instr} {s : State} {c : Bool} {a : Addr} {taken : Prop}
    (hexec : exec i s = .next (s.branch c a)) (hc : c = true ↔ taken) :
    ∃ t, exec i s = .next t ∧ OnlyPcChanges s t ∧
      (taken → t.pc.toNat = a.toNat + 1) ∧ (¬ taken → t.pc = s.pc + 1) := by
  refine ⟨_, hexec, s.onlyPcChanges_branch c a, fun ht => ?_, fun hn => ?_⟩
  · rw [hc.2 ht, s.toNat_pc_branch_true]
  · rw [s.branch_pc, if_neg (hn ∘ hc.1)]

end Sys2Proof.Machine

namespace Sys2Proof.Proofs

open Sys2Proof.Machine

/-- Settles O26: `j` is the branch that is always taken. -/
theorem jumpLandsOnePastItsTarget : Obligations.JumpLandsOnePastItsTarget :=
  ⟨fun _ => decode_eq_j, fun s a => ⟨_, rfl, s.toNat_pc_branch_true a, s.onlyPcChanges_branch true a⟩⟩

/-- Settles O27: each handler is one branch, on the alu's condition for its comparison. -/
theorem branchesCompareUnsigned : Obligations.BranchesCompareUnsigned := by
  refine ⟨fun w => ⟨decode_eq_je, decode_eq_jne, decode_eq_jgt, decode_eq_jlt, decode_eq_jge, decode_eq_jle⟩,
    fun s x y a => ⟨?_, ?_, ?_, ?_, ?_, ?_⟩⟩
  · exact exec_branch_lands rfl condEq_iff
  · exact exec_branch_lands rfl condNe_iff
  · exact exec_branch_lands rfl condGtu_iff
  · exact exec_branch_lands rfl condLtu_iff
  · exact exec_branch_lands rfl condGeu_iff
  · exact exec_branch_lands rfl condLeu_iff

end Sys2Proof.Proofs

/-! Family 45_syscall: the codes that need neither memory nor input, 0, 1 and 7 (R119, R120, R126). -/

namespace Sys2Proof.Machine

/-! ### What the step does with an output of the syscall_mux that writes no register and no memory -/

namespace State

variable (s : State)

/-- A mux that leaves the console `c` and has no more to say: the console is written and `pc` advances (R78). -/
theorem applyMux_console (c : Console) :
    s.applyMux { MuxOut.idle s with console := c } = retire { s with console := c } := rfl

/-- A mux that has only a fatal reason (R128). -/
theorem applyMux_fatal (r : FatalReason) :
    s.applyMux { MuxOut.idle s with fatal := some r } = s.raiseFatal r := rfl

/-- The increment writes `pc` alone (R78). -/
theorem onlyPcChanges_retire : OnlyPcChanges s s.retire :=
  ⟨s.retire_reg, ⟨rfl, rfl⟩, s.retire_memRead, ⟨rfl, rfl, rfl⟩⟩

/-- A console write and the increment leave registers, HI, LO, memory and the fixed parameters alone (R118). -/
theorem sameCore_retire_console (c : Console) : SameCore s (retire { s with console := c }) :=
  ⟨fun _ => rfl, ⟨rfl, rfl⟩, fun _ => rfl, rfl⟩

end State

/-! ### The three codes -/

section
variable (s : State)

/-- R119: code 0 leaves the console as it was, so only the increment remains. -/
theorem exec_syscall_zero : exec (.syscall 0) s = .next s.retire :=
  congrArg Host.Outcome.next (s.applyMux_console s.console)

/-- R120: code 1 writes the numeral of r7 to the console. -/
theorem exec_syscall_one : exec (.syscall 1) s =
    .next (State.retire { s with console := s.console.write (decimal (s.reg r7)) }) :=
  congrArg Host.Outcome.next (s.applyMux_console _)

/-- R126: code 7 is not in the table, so all that comes of it is the fatal reason with the code. -/
theorem exec_syscall_seven : exec (.syscall 7) s = .next (s.raiseFatal (.invalidSyscall 7)) :=
  congrArg Host.Outcome.next (s.applyMux_fatal _)

end

end Sys2Proof.Machine

namespace Sys2Proof.Proofs

open Sys2Proof.Machine

/-- Settles O32: the handler does nothing, so the step is the increment. -/
theorem syscallZeroIsANoOp : Obligations.SyscallZeroIsANoOp := fun s =>
  ⟨s.retire, exec_syscall_zero s, s.onlyPcChanges_retire, s.retire_pc⟩

/-- Settles O33: the handler is one console write, and a console write appends. -/
theorem printIntAppendsDecimal : Obligations.PrintIntAppendsDecimal := fun s =>
  ⟨_, exec_syscall_one s, s.sameCore_retire_console _, rfl, rfl, rfl, rfl⟩

/-- Settles O40: the handler is one fatal end. -/
theorem syscallSevenIsFatal : Obligations.SyscallSevenIsFatal := fun s =>
  ⟨_, exec_syscall_seven s, s.onlyRunChanges_raiseFatal _, s.raiseFatal_run _⟩

end Sys2Proof.Proofs

/-! Family other, the decoder: decoding a word and encoding an instruction agree (R54, R60, R62), what the assembler
writes (R63), and the words that do nothing (R147). -/

namespace Sys2Proof.Machine

/-! ### The words of opcodes 21 to 31, and what every decoded instruction has -/

section
variable {w : Word}

theorem opcodeBits_lt (w : Word) : opcodeBits w < 32 := (w.extractLsb' 27 5).isLt

/-- R57: the two opcodes of the first illegal row. -/
theorem decode_eq_invalid22 (hop : opcodeBits w = 22 ∨ opcodeBits w = 23) :
    decode w = .invalid22 (fieldOpcode w) := by
  obtain hop | hop := hop <;> simp [decode_eq_decodeOpcode, decodeOpcode, toNat_fieldOpcode, hop]

/-- R57: every opcode above them belongs to the second illegal row. -/
theorem decode_eq_invalid24 (hop : 24 ≤ opcodeBits w) : decode w = .invalid24 (fieldOpcode w) := by
  have hlt := opcodeBits_lt w
  rw [decode_eq_decodeOpcode (by omega), decodeOpcode, toNat_fieldOpcode]
  interval_cases opcodeBits w <;> rfl

/-- R57: opcodes 22 to 31 are the two rows. -/
theorem decode_eq_invalid (hop : 22 ≤ opcodeBits w) :
    decode w = .invalid22 (fieldOpcode w) ∨ decode w = .invalid24 (fieldOpcode w) := by
  obtain h22 | h24 : (opcodeBits w = 22 ∨ opcodeBits w = 23) ∨ 24 ≤ opcodeBits w := by omega
  · exact .inl (decode_eq_invalid22 h22)
  · exact .inr (decode_eq_invalid24 h24)

end

/-- The dispatch gives a well-formed instruction of the opcode it looked at. -/
theorem decodeOpcode_check_opcode (w : Word) :
    (decodeOpcode w).check = true ∧ (decodeOpcode w).opcode = fieldOpcode w := by
  have hcheck : ∀ op : BitVec 5, (op.toNat = 22 ∨ op.toNat = 23 → Instr.inRow22 op = true) ∧
      (24 ≤ op.toNat → Instr.inRow24 op = true) := by decide
  unfold decodeOpcode
  -- the arms are numbered from 1: arms 23 to 25 are the illegal opcodes
  split
  case h_23 hop => exact ⟨(hcheck _).1 (.inl hop), rfl⟩
  case h_24 hop => exact ⟨(hcheck _).1 (.inr hop), rfl⟩
  case h_25 =>
    simp only [imp_false] at *
    exact ⟨(hcheck _).2 (by omega), rfl⟩
  all_goals exact ⟨rfl, (BitVec.eq_of_toNat_eq (by assumption)).symm⟩

/-- R60: every word decodes to a well-formed instruction of its own opcode. -/
theorem decode_check_opcode (w : Word) : (decode w).check = true ∧ (decode w).opcode = fieldOpcode w := by
  by_cases hw : w = haltWord
  · subst hw
    decide
  · rw [decode, if_neg hw]
    exact decodeOpcode_check_opcode w

/-- R57: a word that decodes to an illegal row has that opcode, which is one of 22 to 31. -/
theorem fieldOpcode_of_decode_invalid {w : Word} {op : BitVec 5}
    (h : decode w = .invalid22 op ∨ decode w = .invalid24 op) : fieldOpcode w = op ∧ 22 ≤ op.toNat := by
  have hrows : ∀ op, Instr.inRow22 op = true ∨ Instr.inRow24 op = true → 22 ≤ op.toNat := by decide
  obtain ⟨hcheck, hopcode⟩ := decode_check_opcode w
  obtain h | h := h <;> rw [h] at hcheck hopcode
  · exact ⟨hopcode.symm, hrows op (.inl hcheck)⟩
  · exact ⟨hopcode.symm, hrows op (.inr hcheck)⟩

/-! ### Reading the fields of an encoded instruction (R53, R62) -/

/-- The opcode of an instruction's word, as the statements read it. -/
theorem opcodeBits_encode (i : Instr) : opcodeBits (encode i) = i.opcode.toNat := by
  rw [← toNat_fieldOpcode, Laws.EncodeOpcode.every_instr i]

section
variable {n k : Nat} (w : Word) (f : BitVec k)

/-- A field above a placed one does not see it. -/
theorem field_or_place_below {c' k' : Nat} (h : c' + k ≤ n) (hn : n ≤ 32) :
    field c' k' (w ||| place n f) = field c' k' w := by
  rw [field_or, field_place_below h hn]
  exact BitVec.or_zero

/-- A field is what is placed there, where the word had nothing. -/
theorem field_or_place_self (hk : k ≤ n) (hn : n ≤ 32) (hw : field n k w = 0) :
    field n k (w ||| place n f) = f := by
  rw [field_or, hw, field_place hk hn]
  exact BitVec.zero_or

/-- The register in bits [26:24] stays when more is placed below. -/
@[simp] theorem regBits_24_or_place (h : 8 + k ≤ n) (hn : n ≤ 32) :
    regBits (w ||| place n f) 24 = regBits w 24 := by
  simp only [← ofField_fieldRa, fieldRa, field_or_place_below w f h hn]

/-- The register in bits [23:21] stays when more is placed below. -/
@[simp] theorem regBits_21_or_place (h : 11 + k ≤ n) (hn : n ≤ 32) :
    regBits (w ||| place n f) 21 = regBits w 21 := by
  simp only [← ofField_fieldRb, fieldRb, field_or_place_below w f h hn]

/-- The address in bits [26:19] stays when more is placed below. -/
@[simp] theorem addrBits_19_or_place (h : 13 + k ≤ n) (hn : n ≤ 32) :
    addrBits (w ||| place n f) 19 = addrBits w 19 := by
  simp only [← fieldM1_eq_addrBits, fieldM1, field_or_place_below w f h hn]

end

section
variable (op : BitVec 5) (a b c : Reg) (m : Addr)

/-- The formats leave every field below their own at 0. -/
theorem field_encodeR_eq_zero {n k : Nat} (h : 8 + k ≤ n) (hn : n ≤ 32) : field n k (encodeR op a) = 0 := by
  simp [encodeR, field_place_above (show 5 + k ≤ n by omega) hn, field_place_above h hn]

theorem field_encodeRR_eq_zero {n k : Nat} (h : 11 + k ≤ n) (hn : n ≤ 32) : field n k (encodeRR op a b) = 0 := by
  simp [encodeRR, field_encodeR_eq_zero op a (show 8 + k ≤ n by omega) hn, field_place_above h hn]

theorem field_encodeM_eq_zero {n k : Nat} (h : 13 + k ≤ n) (hn : n ≤ 32) : field n k (encodeM op m) = 0 := by
  simp [encodeM, field_place_above (show 5 + k ≤ n by omega) hn, field_place_above h hn]

@[simp] theorem regBits_24_encodeR : regBits (encodeR op a) 24 = a := by
  rw [← ofField_fieldRa]
  exact congrArg Reg.ofField
    (field_or_place_self _ _ (by decide) (by decide) (field_place_above (by decide) (by decide) op))

@[simp] theorem regBits_21_encodeRR : regBits (encodeRR op a b) 21 = b := by
  rw [← ofField_fieldRb]
  exact congrArg Reg.ofField
    (field_or_place_self _ _ (by decide) (by decide) (field_encodeR_eq_zero op a (by decide) (by decide)))

@[simp] theorem regBits_18_encodeRRR : regBits (encodeRRR op a b c) 18 = c := by
  rw [← ofField_fieldRc]
  exact congrArg Reg.ofField
    (field_or_place_self _ _ (by decide) (by decide) (field_encodeRR_eq_zero op a b (by decide) (by decide)))

@[simp] theorem addrBits_13_encodeRRM : addrBits (encodeRRM op a b m) 13 = m := by
  rw [← fieldM3_eq_addrBits]
  exact field_or_place_self _ _ (by decide) (by decide) (field_encodeRR_eq_zero op a b (by decide) (by decide))

@[simp] theorem addrBits_19_encodeM : addrBits (encodeM op m) 19 = m := by
  rw [← fieldM1_eq_addrBits]
  exact field_or_place_self _ _ (by decide) (by decide) (field_place_above (by decide) (by decide) op)

@[simp] theorem regBits_16_encodeM_or_place : regBits (encodeM op m ||| place 16 c.toField) 16 = c := by
  rw [← ofField_fieldRl]
  exact congrArg Reg.ofField
    (field_or_place_self _ _ (by decide) (by decide) (field_encodeM_eq_zero op m (by decide) (by decide)))

@[simp] theorem addrBits_16_encodeR_or_place : addrBits (encodeR op a ||| place 16 m) 16 = m := by
  rw [← fieldM2_eq_addrBits]
  exact field_or_place_self _ _ (by decide) (by decide) (field_encodeR_eq_zero op a (by decide) (by decide))

@[simp] theorem extractLsb'_encodeR_or_place (imm : BitVec 24) :
    (encodeR op a ||| place 32 imm).extractLsb' 0 24 = imm := by
  rw [← fieldImm24_eq_extract]
  exact field_or_place_self _ _ (by decide) (by decide) (field_encodeR_eq_zero op a (by decide) (by decide))

@[simp] theorem extractLsb'_encodeM_or_place (imm : BitVec 19) :
    (encodeM op m ||| place 32 imm).extractLsb' 0 19 = imm := by
  rw [← fieldImm19_eq_extract]
  exact field_or_place_self _ _ (by decide) (by decide) (field_encodeM_eq_zero op m (by decide) (by decide))

/-- The registers and the address of each format, read back from the format's word. -/
@[simp] theorem regBits_24_encodeRR : regBits (encodeRR op a b) 24 = a := by simp [encodeRR]
@[simp] theorem regBits_24_encodeRRR : regBits (encodeRRR op a b c) 24 = a := by simp [encodeRRR]
@[simp] theorem regBits_21_encodeRRR : regBits (encodeRRR op a b c) 21 = b := by simp [encodeRRR]
@[simp] theorem regBits_24_encodeRRM : regBits (encodeRRM op a b m) 24 = a := by simp [encodeRRM]
@[simp] theorem regBits_21_encodeRRM : regBits (encodeRRM op a b m) 21 = b := by simp [encodeRRM]

end

/-- The word of a syscall whose code is not 0 is no halt literal. -/
theorem encode_syscall_ne_haltWord {f : BitVec 3} (hf : f ≠ 0) : encode (.syscall f) ≠ haltWord := by
  revert f
  decide

/-- The code of a syscall, read back from its word. -/
theorem fieldRa_encode_syscall (f : BitVec 3) : fieldRa (encode (.syscall f)) = f := by
  revert f
  decide

/-- Every well-formed instruction but `syscall 0` is what its word decodes to. -/
theorem decode_encode {i : Instr} (hwf : WellFormed i) (hne : i ≠ .syscall 0) : decode (encode i) = i := by
  have hop := opcodeBits_encode i
  cases i with
  | mov a b => exact (decode_eq_mov hop).trans (by simp [encode])
  | and a b c => exact (decode_eq_and hop).trans (by simp [encode])
  | or a b c => exact (decode_eq_or hop).trans (by simp [encode])
  | not a b => exact (decode_eq_not hop).trans (by simp [encode])
  | add a b c => exact (decode_eq_add hop).trans (by simp [encode])
  | sub a b c => exact (decode_eq_sub hop).trans (by simp [encode])
  | mul a b => exact (decode_eq_mul hop).trans (by simp [encode])
  | div a b => exact (decode_eq_div hop).trans (by simp [encode])
  | mfhi a => exact (decode_eq_mfhi hop).trans (by simp [encode])
  | mflo a => exact (decode_eq_mflo hop).trans (by simp [encode])
  | li a n => exact (decode_eq_li hop).trans (by simp [encode])
  | lw m a => exact (decode_eq_lw hop).trans (by simp [encode])
  | si m n => exact (decode_eq_si hop).trans (by simp [encode])
  | sw a m => exact (decode_eq_sw hop).trans (by simp [encode])
  | j m => exact (decode_eq_j hop).trans (by simp [encode])
  | je a b m => exact (decode_eq_je hop).trans (by simp [encode])
  | jne a b m => exact (decode_eq_jne hop).trans (by simp [encode])
  | jgt a b m => exact (decode_eq_jgt hop).trans (by simp [encode])
  | jlt a b m => exact (decode_eq_jlt hop).trans (by simp [encode])
  | jge a b m => exact (decode_eq_jge hop).trans (by simp [encode])
  | jle a b m => exact (decode_eq_jle hop).trans (by simp [encode])
  | halt => exact (decode_eq_halt_iff _).2 rfl
  | syscall f =>
    have hf : f ≠ 0 := fun h => hne (h ▸ rfl)
    rw [decode_eq_syscall (encode_syscall_ne_haltWord hf) ((toNat_fieldOpcode _).trans hop), fieldRa_encode_syscall]
  | invalid22 op =>
    have hrow : ∀ op, Instr.inRow22 op = true → op.toNat = 22 ∨ op.toNat = 23 := by decide
    rw [decode_eq_invalid22 (hop ▸ hrow op hwf), Laws.EncodeOpcode.invalid22 op, Instr.opcode]
  | invalid24 op =>
    have hrow : ∀ op, Instr.inRow24 op = true → 24 ≤ op.toNat := by decide
    rw [decode_eq_invalid24 (hop ▸ hrow op hwf), Laws.EncodeOpcode.invalid24 op, Instr.opcode]

/-! ### Words that agree on the bits their opcode's handler reads (R54) -/

/-- Two words that agree under a mask have the same field wherever the mask covers it. -/
theorem field_eq_of_mask {w w' m : Word} (hm : w &&& m = w' &&& m) {c k : Nat}
    (hfield : field c k m = BitVec.allOnes k) : field c k w = field c k w' := by
  have field_and : ∀ x, field c k (x &&& m) = field c k x := fun x => by
    have hsplit : field c k (x &&& m) = field c k x &&& field c k m := by
      ext i hi
      simp [field]
    rw [hsplit, hfield, BitVec.and_allOnes]
  rw [← field_and w, hm, field_and w']

/-- Every mask covers the opcode. -/
theorem fieldOpcode_usedMask (n : Nat) : field 5 5 (usedMask n) = BitVec.allOnes 5 := by
  unfold usedMask
  split <;> rfl

/-- The masks of R53 cover every field that the dispatch hands to a handler. -/
theorem decodeOpcode_eq_of_mask {w w' : Word}
    (hm : w &&& usedMask (fieldOpcode w).toNat = w' &&& usedMask (fieldOpcode w).toNat) :
    decodeOpcode w = decodeOpcode w' := by
  have hread : ∀ {c k : Nat}, field c k (usedMask (fieldOpcode w).toNat) = BitVec.allOnes k →
      field c k w = field c k w' := field_eq_of_mask hm
  have hop : fieldOpcode w = fieldOpcode w' := hread (fieldOpcode_usedMask _)
  unfold decodeOpcode
  rw [← hop]
  -- the arms of the illegal opcodes, 23 to 25, hand on the opcode alone
  split
  case h_23 | h_24 | h_25 => rfl
  all_goals
    rename_i hn
    rw [hn] at hread
    simp (disch := decide) only [fieldRa, fieldRb, fieldRc, fieldRl, fieldM1, fieldM2, fieldM3, fieldImm24,
      fieldImm19, hread]

/-! ### The words below 0x00200000 (R147) -/

/-- Every bit of such a word is 0 from bit 21 up, where the fields of `mov` stand. -/
theorem extractLsb'_eq_zero_of_lt {w : Word} (hw : w.toNat < 0x00200000) {lo : Nat} (hlo : 21 ≤ lo) (k : Nat) :
    w.extractLsb' lo k = 0 := by
  have hlt : w.toNat < 2 ^ lo := lt_of_lt_of_le hw (Nat.pow_le_pow_right (by decide) hlo : 2 ^ 21 ≤ 2 ^ lo)
  apply BitVec.eq_of_toNat_eq
  rw [BitVec.extractLsb'_toNat, Nat.shiftRight_eq_div_pow, Nat.div_eq_of_lt hlt]
  simp

/-- R61: the fields of such a word are those of `mov r0, r0`. -/
theorem decode_of_lt {w : Word} (hw : w.toNat < 0x00200000) : decode w = .mov 0 0 := by
  have hop : opcodeBits w = 0 := congrArg BitVec.toNat (extractLsb'_eq_zero_of_lt hw (by decide) 5)
  rw [decode_eq_mov hop, regBits, regBits, extractLsb'_eq_zero_of_lt hw (by decide) 3,
    extractLsb'_eq_zero_of_lt hw (by decide) 3]
  rfl

/-- A register written with what it holds is no write. -/
theorem State.onlyPcChanges_retire_setReg_self (s : State) (d : Reg) :
    OnlyPcChanges s (s.setReg d (s.reg d)).retire := by
  refine ⟨fun r => ?_, ⟨rfl, rfl⟩, fun _ => rfl, rfl, rfl, rfl⟩
  rw [retire_reg, setReg_reg]
  split
  · rw [‹r = d›]
  · rfl

/-! ### The assembler's lines (R63) -/

/-- A value of a field fits it. -/
@[simp] theorem fitField_toNat {k : Nat} (v : BitVec k) : fitField k v.toNat = some v := by
  rw [fitField, if_pos v.isLt, BitVec.ofNat_toNat, BitVec.setWidth_eq]

/-- A register's number names it. -/
@[simp] theorem fitReg_val (r : Reg) : fitReg r.val = some r := by
  have hfield : fitField 3 r.val = some r.toField := fitField_toNat r.toField
  rw [fitReg, hfield, Option.map_some, ofField_toField]

end Sys2Proof.Machine

namespace Sys2Proof.Proofs

open Sys2Proof.Machine

/-- Settles O4: every field of an encoded instruction reads back, and the word of `syscall 0` is the halt literal. -/
theorem decodeOfEncodeIsTheInstruction : Obligations.DecodeOfEncodeIsTheInstruction := by
  intro i hwf
  split
  · rename_i hi
    rw [hi]
    exact (decode_eq_halt_iff _).2 (by decide)
  · exact decode_encode hwf (by assumption)

/-- Settles O5: the instruction's own opcode tells halt literal, syscall and illegal word apart, and two words of
opcode 21 differ by the comparison with the halt literal. -/
theorem everyWordDecodesByItsOpcode : Obligations.EveryWordDecodesByItsOpcode := by
  intro w
  obtain ⟨hcheck, hopcode⟩ := decode_check_opcode w
  refine ⟨hcheck, hopcode, decode_eq_halt_iff w, ⟨fun ⟨f, hf⟩ => ?_, fun ⟨hop, hw⟩ => ?_⟩,
    ⟨fun ⟨op, hop⟩ => ?_, fun hop => ⟨fieldOpcode w, ?_⟩⟩⟩
  · rw [hf] at hopcode
    refine ⟨hopcode.symm, fun hw => ?_⟩
    rw [(decode_eq_halt_iff w).2 hw] at hf
    cases hf
  · exact ⟨_, decode_eq_syscall hw (congrArg BitVec.toNat hop)⟩
  · obtain ⟨heq, hle⟩ := fieldOpcode_of_decode_invalid hop
    rwa [heq]
  · exact decode_eq_invalid (toNat_fieldOpcode w ▸ hop)

/-- Settles O7: the dispatch reads only fields that the opcode's mask covers. -/
theorem unusedBitsAreIgnored : Obligations.UnusedBitsAreIgnored := by
  intro w w' hw hw' hm
  have hdec : decode w = decodeOpcode w := if_neg hw
  have hdec' : decode w' = decodeOpcode w' := if_neg hw'
  rw [hdec, hdec', decodeOpcode_eq_of_mask hm]

/-- Settles O8: the opcode and both register fields of such a word are 0, and `mov r0, r0` writes back what it read. -/
theorem smallWordsRunAsNoOps : Obligations.SmallWordsRunAsNoOps := by
  intro w s hw
  have hdec := decode_of_lt hw
  exact ⟨hdec, _, by rw [hdec]; rfl, s.onlyPcChanges_retire_setReg_self 0, rfl⟩

/-- Settles O3: each word is evaluated. -/
theorem specWordsDecode : Obligations.SpecWordsDecode := by
  unfold Obligations.SpecWordsDecode
  decide

/-- Settles O6: the decoder's shift and mask is the bit slice, for every field. -/
theorem decoderOutputsAreTheBitFields : Obligations.DecoderOutputsAreTheBitFields := fun ir =>
  ⟨field_eq_extract 5 5 ir, field_eq_extract 8 3 ir, field_eq_extract 11 3 ir, field_eq_extract 14 3 ir,
    field_eq_extract 16 3 ir, field_eq_extract 13 8 ir, field_eq_extract 16 8 ir, field_eq_extract 19 8 ir,
    field_eq_extract 32 24 ir, field_eq_extract 32 19 ir⟩

/-- Settles O9: every operand that `disassemble` writes fits its field and gives the operand back. -/
theorem assembleUndoesDisassemble : Obligations.AssembleUndoesDisassemble := by
  intro i
  cases i with
  | halt => rfl
  | invalid22 op => exact fitField_toNat _
  | invalid24 op => exact fitField_toNat _
  | mov | not | mul | div => simp [disassemble, assemble, asmInstr, asmRR]
  | and | or | add | sub => simp [disassemble, assemble, asmInstr, asmRRR]
  | mfhi | mflo => simp [disassemble, assemble, asmInstr, asmR]
  | je | jne | jgt | jlt | jge | jle => simp [disassemble, assemble, asmInstr, asmRRM]
  | li | lw | si | sw | j | syscall => simp [disassemble, assemble, asmInstr]

/-- Settles O31: a word of opcode 21 is the syscall of its `func` slice unless the comparison of R58 took it. -/
theorem syscallWordsNameTheirFunction : Obligations.SyscallWordsNameTheirFunction := by
  intro w hop hw
  have hfunc : fieldRa w = w.extractLsb' 24 3 := field_eq_extract 8 3 w
  rw [decode_eq_syscall hw ((toNat_fieldOpcode w).trans hop), hfunc]

end Sys2Proof.Proofs

/-! Family other, the console's functions: numerals (R115, R116), lines (R112) and valid characters (R114). -/

namespace Sys2Proof.Machine

/-! ### Digits and their value -/

/-- The digits are U+0030 to U+0039 (R116). -/
theorem isDigit_iff {c : Word} : isDigit c = true ↔ 0x30 ≤ c.toNat ∧ c.toNat ≤ 0x39 := by
  simp [isDigit, digitZero]

/-- One more digit at the end: the value so far counts ten times. -/
theorem digitsValue_append_singleton (cs : List Word) (c : Word) :
    digitsValue (cs ++ [c]) = 10 * digitsValue cs + (c.toNat - digitZero.toNat) := by
  simp [digitsValue]

/-- A leading zero does not count. -/
theorem digitsValue_cons_zero (cs : List Word) : digitsValue (digitZero :: cs) = digitsValue cs := by
  simp [digitsValue]

/-- The character of a digit has the digit's number above U+0030. -/
theorem toNat_digit {d : Nat} (hd : d < 10) : (BitVec.ofNat 32 (digitZero.toNat + d)).toNat = digitZero.toNat + d := by
  have hz : digitZero.toNat = 48 := rfl
  rw [BitVec.toNat_ofNat]
  omega

/-- What R115 asks of a numeral of `n`: digits alone, of value `n`, and a leading zero only where it is all there is. -/
structure IsNumeral (n : Nat) (ds : List Word) : Prop where
  digits : ∀ c ∈ ds, isDigit c = true
  value : digitsValue ds = n
  leading : ds.head? = some digitZero → ds = [digitZero]
  nonempty : ds ≠ []

/-- A number below ten is its one digit. -/
theorem isNumeral_singleton {d : Nat} (hd : d < 10) : IsNumeral d [BitVec.ofNat 32 (digitZero.toNat + d)] where
  digits := by
    have hz : digitZero.toNat = 48 := rfl
    simp only [List.mem_singleton, forall_eq, isDigit_iff, toNat_digit hd]
    omega
  value := by simp [digitsValue, toNat_digit hd]
  leading h := by simpa using h
  nonempty := by simp

/-- The numeral of a number of ten or more ends in its last digit, after the numeral of its tenth part. -/
theorem IsNumeral.append_digit {n : Nat} {ds : List Word} (h : IsNumeral (n / 10) ds) (hn : n / 10 ≠ 0) :
    IsNumeral n (ds ++ [BitVec.ofNat 32 (digitZero.toNat + n % 10)]) where
  digits c hc := by
    obtain hc | hc := List.mem_append.1 hc
    · exact h.digits c hc
    · exact (isNumeral_singleton (Nat.mod_lt n (by decide))).digits c hc
  value := by
    rw [digitsValue_append_singleton, h.value, toNat_digit (Nat.mod_lt n (by decide))]
    omega
  leading hz := by
    rw [List.head?_append_of_ne_nil _ h.nonempty] at hz
    have hzero : digitsValue ds = 0 := by rw [h.leading hz]; rfl
    exact absurd (h.value.symm.trans hzero) hn
  nonempty := by simp

/-- With fuel for all its digits the loop puts a numeral of `n` before what it had. -/
theorem decimalDigits_spec {fuel n : Nat} (hn : n < 10 ^ (fuel + 1)) (acc : List Word) :
    ∃ ds, decimalDigits (fuel + 1) n acc = ds ++ acc ∧ IsNumeral n ds ∧ ds.length ≤ fuel + 1 := by
  induction fuel generalizing n acc with
  | zero =>
    have hlt : n < 10 := by simpa using hn
    refine ⟨[BitVec.ofNat 32 (digitZero.toNat + n)], ?_, isNumeral_singleton hlt, le_refl _⟩
    simp [decimalDigits, Nat.mod_eq_of_lt hlt]
  | succ fuel ih =>
    rw [decimalDigits]
    by_cases hz : n / 10 = 0
    · have hlt : n < 10 := by omega
      refine ⟨[BitVec.ofNat 32 (digitZero.toNat + n)], ?_, isNumeral_singleton hlt, by simp⟩
      simp [hz, Nat.mod_eq_of_lt hlt]
    · have htenth : n / 10 < 10 ^ (fuel + 1) := by omega
      obtain ⟨ds, heq, hds, hlen⟩ := ih htenth (BitVec.ofNat 32 (digitZero.toNat + n % 10) :: acc)
      refine ⟨ds ++ [BitVec.ofNat 32 (digitZero.toNat + n % 10)], ?_, hds.append_digit hz, by simpa using hlen⟩
      simp [hz, heq]

/-- R115: `decimal` gives a numeral of the word, at most ten digits long. -/
theorem decimal_spec (v : Word) : IsNumeral v.toNat (decimal v) ∧ (decimal v).length ≤ 10 := by
  have hv : v.toNat < 10 ^ (9 + 1) := lt_trans v.isLt (by decide)
  obtain ⟨ds, heq, hds, hlen⟩ := decimalDigits_spec hv []
  have hdec : decimal v = ds := heq.trans (List.append_nil ds)
  rw [hdec]
  exact ⟨hds, hlen⟩

/-- R116: what `parse_uint` accepts, and what it answers. -/
theorem parseUint_eq_some_iff {cs : List Word} {v : Word} : parseUint cs = some v ↔
    cs ≠ [] ∧ (∀ c ∈ cs, isDigit c = true) ∧ digitsValue cs = v.toNat := by
  have hv : v.toNat < 2 ^ 32 := v.isLt
  unfold parseUint
  split
  · rename_i h
    obtain ⟨hne, hdig, hle⟩ := h
    rw [Option.some_inj, ← BitVec.toNat_inj, BitVec.toNat_ofNat, Nat.mod_eq_of_lt (by omega)]
    exact ⟨fun he => ⟨hne, List.all_eq_true.1 hdig, he⟩, fun ⟨_, _, he⟩ => he⟩
  · rename_i h
    refine iff_of_false nofun fun ⟨hne, hdig, he⟩ => h ⟨hne, List.all_eq_true.2 hdig, by omega⟩

/-! ### Lines -/

/-- The line before the first line feed, and what follows it. -/
theorem splitLine_append {cs : List Word} (hcs : lineFeed ∉ cs) (rest : List Word) :
    splitLine (cs ++ lineFeed :: rest) = some (cs, rest) := by
  induction cs with
  | nil => simp [splitLine]
  | cons c cs ih =>
    obtain ⟨hc, hcs⟩ : lineFeed ≠ c ∧ lineFeed ∉ cs := by simpa using hcs
    rw [List.cons_append, splitLine, if_neg (Ne.symm hc), ih hcs]

/-- Without a line feed there is no line. -/
theorem splitLine_eq_none {cs : List Word} (hcs : lineFeed ∉ cs) : splitLine cs = none := by
  cases h : splitLine cs with
  | none => rfl
  | some p =>
    obtain ⟨heq, -⟩ := splitLine_some h
    exact absurd (by simp [heq]) hcs

namespace InputStream

variable {i : InputStream} {strip : Bool}

/-- R112 where a line has arrived. -/
theorem readLine_of_lineFeed {cs rest : List Word} (hcs : lineFeed ∉ cs) (harr : i.arrived = cs ++ lineFeed :: rest) :
    i.readLine strip = .got (stripLine strip cs) rest := by
  rw [readLine, harr, splitLine_append hcs]

/-- R112 where no line has arrived and more may come. -/
theorem readLine_of_not_ended (harr : lineFeed ∉ i.arrived) (hend : i.ended = false) : i.readLine strip = .wait := by
  simp [readLine, splitLine_eq_none harr, hend]

/-- R112 where nothing is left. -/
theorem readLine_of_nil (harr : i.arrived = []) (hend : i.ended = true) : i.readLine strip = .endOfInput := by
  simp [readLine, harr, splitLine, hend]

/-- R112 where the input ends in a partial line. -/
theorem readLine_of_partial (harr : lineFeed ∉ i.arrived) (hne : i.arrived ≠ []) (hend : i.ended = true) :
    i.readLine strip = .got (stripLine strip i.arrived) [] := by
  simp [readLine, splitLine_eq_none harr, hne, hend]

end InputStream

/-! ### Valid characters -/

/-- R114: the two ranges of the default parameters. -/
theorem charValid_default_iff (v : Word) : charValid Config.default v = true ↔
    v.toNat ≤ 0xD7FF ∨ (0xE000 ≤ v.toNat ∧ v.toNat ≤ 0x10FFFF) := by
  simp [charValid, Config.default]

end Sys2Proof.Machine

namespace Sys2Proof.Proofs

open Sys2Proof.Machine

/-- Settles O28: the loop puts the last digit after the numeral of the tenth part, and 2^32 has ten digits. -/
theorem decimalIsTheShortestNumeral : Obligations.DecimalIsTheShortestNumeral := by
  intro v
  obtain ⟨hnum, hlen⟩ := decimal_spec v
  refine ⟨fun c hc => isDigit_iff.1 (hnum.digits c hc), hnum.value, List.length_pos_iff.2 hnum.nonempty, hlen,
    fun hz => ?_⟩
  have hdec : decimal v = [digitZero] := hnum.leading hz
  have hv : v.toNat = 0 := by rw [← hnum.value, hdec]; rfl
  exact ⟨BitVec.eq_of_toNat_eq hv, hdec⟩

/-- Settles O29: a leading zero is a digit that adds nothing to the value, and `decimal` writes a numeral. -/
theorem parseUintReadsDigitLines : Obligations.ParseUintReadsDigitLines := by
  refine ⟨fun cs v => ?_, fun cs hne => Option.ext fun v => ?_, fun v => ?_⟩
  · simp only [parseUint_eq_some_iff, isDigit_iff]
  · have hzero : isDigit digitZero = true := by decide
    change parseUint (digitZero :: cs) = some v ↔ parseUint cs = some v
    simp [parseUint_eq_some_iff, digitsValue_cons_zero, hne, hzero]
  · obtain ⟨hnum, -⟩ := decimal_spec v
    exact parseUint_eq_some_iff.2 ⟨hnum.nonempty, hnum.digits, hnum.value⟩

/-- Settles O30: one lemma for each case of what has arrived. -/
theorem readLineTakesOneLine : Obligations.ReadLineTakesOneLine := fun i strip =>
  ⟨fun _ _ => InputStream.readLine_of_lineFeed, InputStream.readLine_of_not_ended, InputStream.readLine_of_nil,
    InputStream.readLine_of_partial, fun _ => rfl, fun cs => by simp [stripLine],
    fun cs hcs => by simp [stripLine, hcs]⟩

/-- Settles O35: the two default ranges leave out the surrogates. -/
theorem defaultCharValidIsScalarTest : Obligations.DefaultCharValidIsScalarTest := by
  intro v
  rw [charValid_default_iff]
  omega

end Sys2Proof.Proofs

/-! Family other, the syscalls that read or may fail: codes 2 to 6, one equation for each outcome (R121 to R125). -/

namespace Sys2Proof.Machine

/-! ### What a read of a line found -/

namespace InputStream

variable {i : InputStream} {strip : Bool}

/-- R112: a line that was taken ended in a line feed, or the input ended in it. -/
theorem readLine_got {cs rest : List Word} (h : i.readLine strip = .got cs rest) :
    (∃ l, lineFeed ∉ l ∧ i.arrived = l ++ lineFeed :: rest ∧ cs = stripLine strip l) ∨
      (i.ended = true ∧ cs = stripLine strip i.arrived ∧ rest = []) := by
  unfold readLine at h
  split at h
  · rename_i l rest' hsplit
    obtain ⟨harr, hl⟩ := splitLine_some hsplit
    cases h
    exact .inl ⟨l, hl, harr, rfl⟩
  · split_ifs at h with hend harr
    cases h
    exact .inr ⟨by simpa using hend, rfl, rfl⟩

/-- R112: a read that met the end found nothing left. -/
theorem readLine_endOfInput (h : i.readLine strip = .endOfInput) : i.arrived = [] ∧ i.ended = true := by
  unfold readLine at h
  split at h
  · cases h
  · split_ifs at h with hend harr
    exact ⟨harr, by simpa using hend⟩

/-- A line is taken from the front of what has arrived. -/
theorem readLine_got_append {cs rest : List Word} (h : i.readLine strip = .got cs rest) :
    ∃ used, i.arrived = used ++ rest := by
  obtain ⟨l, -, harr, -⟩ | ⟨-, -, rfl⟩ := readLine_got h
  · exact ⟨l ++ [lineFeed], by simp [harr]⟩
  · exact ⟨i.arrived, by simp⟩

/-- R113, case by case. -/
theorem readChar_of_cons {c : Word} {rest : List Word} (h : i.arrived = c :: rest) : i.readChar = .got c rest := by
  simp [readChar, h]

theorem readChar_of_not_ended (h : i.arrived = []) (hend : i.ended = false) : i.readChar = .wait := by
  simp [readChar, h, hend]

theorem readChar_of_ended (h : i.arrived = []) (hend : i.ended = true) : i.readChar = .endOfInput := by
  simp [readChar, h, hend]

end InputStream

/-! ### The words that syscall 3 meets -/

namespace Memory

/-- From an index inside the memory: the word there, then the words after it. -/
theorem wordsFrom_of_lt (m : Memory) {a : Nat} (ha : a < memWords) :
    m.wordsFrom a = m.read (BitVec.ofNat 8 a) :: m.wordsFrom (a + 1) := by
  have hlen : memWords - a = memWords - (a + 1) + 1 := by omega
  simp [wordsFrom, hlen, List.range'_succ]

/-- From an index past the memory: nothing. -/
theorem wordsFrom_of_ge (m : Memory) {a : Nat} (ha : memWords ≤ a) : m.wordsFrom a = [] := by
  simp [wordsFrom, Nat.sub_eq_zero_of_le ha]

/-- The first `n` words from an index, then the words after them. -/
theorem wordsFrom_eq_append (m : Memory) {a n : Nat} (h : a + n ≤ memWords) : m.wordsFrom a =
    (List.range n).map (fun i => m.read (BitVec.ofNat 8 (a + i))) ++ m.wordsFrom (a + n) := by
  have hlen : memWords - a = n + (memWords - (a + n)) := by omega
  rw [wordsFrom, hlen, ← List.range'_append_1, List.map_append, List.range'_eq_map_range, List.map_map]
  rfl

end Memory

section
variable {cfg : Config}

/-- The walk goes on over words that are valid and not 0. -/
theorem scanString_append {ws : List Word} (hws : ∀ c ∈ ws, c ≠ 0 ∧ charValid cfg c = true) (vs : List Word) :
    scanString cfg (ws ++ vs) = (ws ++ (scanString cfg vs).1, (scanString cfg vs).2) := by
  induction ws with
  | nil => rfl
  | cons w ws ih =>
    obtain ⟨⟨hw, hvalid⟩, hws⟩ := List.forall_mem_cons.1 hws
    rw [List.cons_append, scanString, if_neg hw, hvalid, ih hws]
    rfl

/-- The walk stops before a zero word. -/
theorem scanString_cons_zero (vs : List Word) : scanString cfg (0 :: vs) = ([], none) := by
  simp [scanString]

/-- The walk fails at a word that is neither 0 nor valid. -/
theorem scanString_cons_invalid {v : Word} (hv : v ≠ 0) (hvalid : charValid cfg v = false) (vs : List Word) :
    scanString cfg (v :: vs) = ([], some v) := by
  rw [scanString, if_neg hv, hvalid]
  rfl

end

/-! ### What each outcome of codes 2 to 6 makes of the state -/

section
variable {s : State}

/-- The rows of the syscall table (R59, R72). -/
theorem exec_syscall_two : exec (.syscall 2) s = .next (s.applyMux (sysPrintChar s)) := rfl
theorem exec_syscall_three : exec (.syscall 3) s = .next (s.applyMux (sysPrintString s)) := rfl
theorem exec_syscall_four : exec (.syscall 4) s = .next (s.applyMux (sysReadInt s)) := rfl
theorem exec_syscall_five : exec (.syscall 5) s = .next (s.applyMux (sysReadChar s)) := rfl
theorem exec_syscall_six : exec (.syscall 6) s = .next (s.applyMux (sysReadString s)) := rfl

theorem exec_syscall_two_of_valid (h : charValid s.cfg (s.reg r7) = true) :
    exec (.syscall 2) s = .next (State.retire { s with console := s.console.write [s.reg r7] }) := by
  simp only [exec_syscall_two, sysPrintChar, h]
  rfl

theorem exec_syscall_two_of_invalid (h : charValid s.cfg (s.reg r7) = false) :
    exec (.syscall 2) s = .next (s.raiseFatal (.invalidCharacter (s.reg r7))) := by
  simp only [exec_syscall_two, sysPrintChar, h]
  rfl

theorem exec_syscall_three_of_valid {written : List Word}
    (h : scanString s.cfg (s.mem.wordsFrom (s.reg r7).toNat) = (written, none)) :
    exec (.syscall 3) s = .next (State.retire { s with console := s.console.write written }) := by
  simp only [exec_syscall_three, sysPrintString, h]
  rfl

theorem exec_syscall_three_of_invalid {written : List Word} {v : Word}
    (h : scanString s.cfg (s.mem.wordsFrom (s.reg r7).toNat) = (written, some v)) : exec (.syscall 3) s =
      .next (State.raiseFatal { s with console := s.console.write written } (.invalidCharacter v)) := by
  simp only [exec_syscall_three, sysPrintString, h]
  rfl

theorem exec_syscall_four_of_wait (h : s.console.inp.readLine s.cfg.stripCr = .wait) :
    exec (.syscall 4) s = .next s.hold := by
  simp only [exec_syscall_four, sysReadInt, h]
  rfl

theorem exec_syscall_four_of_end (h : s.console.inp.readLine s.cfg.stripCr = .endOfInput) :
    exec (.syscall 4) s = .next s.retire := by
  simp only [exec_syscall_four, sysReadInt, h]
  rfl

theorem exec_syscall_four_of_got {cs rest : List Word} {v : Word}
    (h : s.console.inp.readLine s.cfg.stripCr = .got cs rest) (hcs : parseUint cs = some v) : exec (.syscall 4) s =
      .next (State.setReg { s with console := s.console.consume rest } r7 v).retire := by
  simp only [exec_syscall_four, sysReadInt, h, hcs]
  rfl

theorem exec_syscall_four_of_malformed {cs rest : List Word}
    (h : s.console.inp.readLine s.cfg.stripCr = .got cs rest) (hcs : parseUint cs = none) : exec (.syscall 4) s =
      .next (State.raiseFatal { s with console := s.console.consume rest } (.parseError cs)) := by
  simp only [exec_syscall_four, sysReadInt, h, hcs]
  rfl

theorem exec_syscall_five_of_wait (h : s.console.inp.readChar = .wait) : exec (.syscall 5) s = .next s.hold := by
  simp only [exec_syscall_five, sysReadChar, h]
  rfl

theorem exec_syscall_five_of_end (h : s.console.inp.readChar = .endOfInput) :
    exec (.syscall 5) s = .next (s.raiseFatal .inputExhausted) := by
  simp only [exec_syscall_five, sysReadChar, h]
  rfl

theorem exec_syscall_five_of_got {c : Word} {rest : List Word} (h : s.console.inp.readChar = .got c rest) :
    exec (.syscall 5) s = .next (State.setReg { s with console := s.console.consume rest } r7 c).retire := by
  simp only [exec_syscall_five, sysReadChar, h]
  rfl

theorem exec_syscall_six_of_wait (h : s.console.inp.readLine s.cfg.stripCr = .wait) :
    exec (.syscall 6) s = .next s.hold := by
  simp only [exec_syscall_six, sysReadString, h]
  rfl

theorem exec_syscall_six_of_end (h : s.console.inp.readLine s.cfg.stripCr = .endOfInput) :
    exec (.syscall 6) s = .next s.retire := by
  simp only [exec_syscall_six, sysReadString, h]
  rfl

theorem exec_syscall_six_of_got {cs rest : List Word} (h : s.console.inp.readLine s.cfg.stripCr = .got cs rest) :
    exec (.syscall 6) s = .next (State.retire
      { s with mem := s.mem.writeFrom (s.reg r7).toNat cs, console := s.console.consume rest }) := by
  simp only [exec_syscall_six, sysReadString, h]
  rfl

end

/-! ### What those outcomes leave alone -/

namespace State

variable (s : State)

/-- A fatal end leaves registers, HI, LO, memory and the fixed parameters alone, whatever it did to the console
(R128). -/
theorem sameCore_raiseFatal_console (c : Console) (r : FatalReason) :
    SameCore s (raiseFatal { s with console := c } r) :=
  ⟨fun _ => rfl, ⟨rfl, rfl⟩, fun _ => rfl, rfl⟩

/-- A register that was read into, with the console the read left: no other register changes. -/
theorem sameRegsBut_retire_setReg_console (c : Console) (d : Reg) (v : Word) :
    SameRegsBut d s (setReg { s with console := c } d v).retire := fun r hr => by
  rw [retire_reg, setReg_reg, if_neg hr]
  rfl

/-- A wait leaves registers, HI, LO, memory and the fixed parameters alone (R80). -/
theorem sameCore_hold : SameCore s s.hold := ⟨s.hold_reg, ⟨s.hold_hi, s.hold_lo⟩, s.hold_memRead, s.hold_cfg⟩

variable {s}

theorem hold_of_nil (h : s.console.inp.coming = []) : s.hold = s := by
  simp [hold, h]

theorem hold_inp_of_cons {e : HostEvent} {rest : List HostEvent} (h : s.console.inp.coming = e :: rest) :
    s.hold.console.inp = { s.console.inp with coming := rest }.deliver e := by
  simp [hold, h]

end State

/-- What is written when there is nothing to write. -/
@[simp] theorem Console.write_nil (c : Console) : c.write [] = c := by
  simp [Console.write]

/-- The walk of syscall 3 over `n` words that it writes and then over the rest. -/
theorem scanString_wordsFrom {s : State} {a n : Nat} (hn : a + n ≤ memWords)
    (hword : ∀ i < n, s.memRead (BitVec.ofNat 8 (a + i)) ≠ 0 ∧
      charValid s.cfg (s.memRead (BitVec.ofNat 8 (a + i))) = true) :
    scanString s.cfg (s.mem.wordsFrom a) =
      ((List.range n).map (fun i => s.memRead (BitVec.ofNat 8 (a + i))) ++
        (scanString s.cfg (s.mem.wordsFrom (a + n))).1, (scanString s.cfg (s.mem.wordsFrom (a + n))).2) := by
  rw [s.mem.wordsFrom_eq_append hn]
  refine scanString_append (fun c hc => ?_) _
  obtain ⟨i, hi, rfl⟩ := List.mem_map.1 hc
  exact hword i (List.mem_range.1 hi)

end Sys2Proof.Machine

namespace Sys2Proof.Proofs

open Sys2Proof.Machine

/-- Settles O34: the test of r7 alone decides between the console write and the fatal end. -/
theorem printCharAppendsOrFails : Obligations.PrintCharAppendsOrFails := fun s =>
  ⟨fun h => ⟨_, exec_syscall_two_of_valid h, s.sameCore_retire_console _, rfl, rfl, rfl, rfl⟩,
    fun h => ⟨_, exec_syscall_two_of_invalid h, s.onlyRunChanges_raiseFatal _, rfl⟩⟩

/-- Settles O36: the words from r7 up are the `n` ones the walk writes and then those from `r7 + n` up, whose first
decides. -/
theorem printStringStopsAtZeroOr256 : Obligations.PrintStringStopsAtZeroOr256 := by
  intro s n a word written
  refine ⟨fun hn hword => ⟨fun hstop => ?_, fun ⟨hlt, hne, hinvalid⟩ => ?_⟩, fun ha => ?_⟩
  · have hrest : scanString s.cfg (s.mem.wordsFrom (a + n)) = ([], none) := by
      by_cases hlt : a + n < 256
      · have hzero : s.mem.read (BitVec.ofNat 8 (a + n)) = 0 := hstop.resolve_left (by omega)
        rw [s.mem.wordsFrom_of_lt hlt, hzero, scanString_cons_zero]
      · rw [s.mem.wordsFrom_of_ge (Nat.le_of_not_lt hlt), scanString]
    have hscan := scanString_wordsFrom hn hword
    rw [hrest, List.append_nil] at hscan
    exact ⟨_, exec_syscall_three_of_valid hscan, s.sameCore_retire_console _, rfl, rfl, rfl, rfl⟩
  · have hrest : scanString s.cfg (s.mem.wordsFrom (a + n)) = ([], some (word n)) := by
      rw [s.mem.wordsFrom_of_lt hlt]
      exact scanString_cons_invalid hne hinvalid _
    have hscan := scanString_wordsFrom hn hword
    rw [hrest, List.append_nil] at hscan
    exact ⟨_, exec_syscall_three_of_invalid hscan, s.sameCore_raiseFatal_console _ _, rfl, rfl, rfl, rfl⟩
  · have hscan : scanString s.cfg (s.mem.wordsFrom a) = ([], none) := by
      rw [s.mem.wordsFrom_of_ge ha, scanString]
    refine ⟨_, exec_syscall_three_of_valid hscan, ?_, rfl⟩
    rw [Console.write_nil]
    exact s.onlyPcChanges_retire

/-- Settles O37: one equation for each outcome of the line read. -/
theorem readIntParsesALine : Obligations.ReadIntParsesALine := fun s =>
  ⟨fun h => ⟨_, exec_syscall_four_of_end h, s.onlyPcChanges_retire, rfl⟩,
    fun _ _ v h hcs => ⟨_, exec_syscall_four_of_got h hcs, State.reg_retire_setReg _ r7 v,
      s.sameRegsBut_retire_setReg_console _ r7 v, ⟨rfl, rfl⟩, fun _ => rfl, rfl, rfl, rfl, rfl, rfl⟩,
    fun _ _ h hcs => ⟨_, exec_syscall_four_of_malformed h hcs, s.sameCore_raiseFatal_console _ _, rfl, rfl, rfl, rfl⟩⟩

/-- Settles O38: one equation for a code point at hand and one for the end of the input. -/
theorem readCharTakesOneCodePoint : Obligations.ReadCharTakesOneCodePoint := fun s =>
  ⟨fun c _ h => ⟨_, exec_syscall_five_of_got (InputStream.readChar_of_cons h), State.reg_retire_setReg _ r7 c,
      s.sameRegsBut_retire_setReg_console _ r7 c, ⟨rfl, rfl⟩, fun _ => rfl, rfl, rfl, rfl, rfl, rfl⟩,
    fun h hend => ⟨_, exec_syscall_five_of_end (InputStream.readChar_of_ended h hend), s.onlyRunChanges_raiseFatal _,
      rfl⟩⟩

/-- Settles O39: the line goes to memory by the walk of writes, which drops what passes index 255. -/
theorem readLineGoesToMemory : Obligations.ReadLineGoesToMemory := fun s hwf =>
  ⟨fun h => ⟨_, exec_syscall_six_of_end h, s.onlyPcChanges_retire, rfl⟩,
    fun cs _ h => ⟨_, exec_syscall_six_of_got h, fun _ => rfl, ⟨rfl, rfl⟩, rfl, rfl, rfl, rfl, rfl,
      fun a => Memory.read_writeFrom (s.reg r7).toNat cs a hwf⟩⟩

/-- Settles O41: each of the three reads that finds nothing is the hold. -/
theorem aWaitChangesNothingOfTheCore : Obligations.AWaitChangesNothingOfTheCore := by
  intro s waits
  have hwaits : ∀ f, exec (.syscall f) s = .next s.hold → waits f := fun f h =>
    ⟨s.hold, h, s.sameCore_hold, s.hold_run, s.hold_pc, s.hold_out, State.hold_of_nil,
      fun _ _ => State.hold_inp_of_cons⟩
  refine ⟨fun harr hend => ?_, fun harr hend => ?_⟩
  · have hread : s.console.inp.readLine s.cfg.stripCr = .wait := InputStream.readLine_of_not_ended harr hend
    exact ⟨hwaits 4 (exec_syscall_four_of_wait hread), hwaits 6 (exec_syscall_six_of_wait hread)⟩
  · exact hwaits 5 (exec_syscall_five_of_wait (InputStream.readChar_of_not_ended harr hend))

end Sys2Proof.Proofs

/-! Family other, the step: what one instruction can make of a state, said once (R73 to R81, R128), and from it the
frames of a step, the causes of an end and the step's invariant. -/

namespace Sys2Proof.Machine

/-! ### The effects of an instruction -/

/-- The instruction is a jump or a branch to this address (R103 to R109). -/
def JumpsTo (i : Instr) (a : Addr) : Prop :=
  i = .j a ∨ ∃ x y, i = .je x y a ∨ i = .jne x y a ∨ i = .jgt x y a ∨ i = .jlt x y a ∨ i = .jge x y a ∨ i = .jle x y a

/-- The causes of R127: instruction `i`, run in `s`, fails with this reason and leaves the console like this. -/
inductive Fails (s : State) (i : Instr) : Console → FatalReason → Prop
  | opcode (op : BitVec 5) (hi : i = .invalid22 op ∨ i = .invalid24 op) : Fails s i s.console (.invalidOpcode op)
  | divisor (a b : Reg) (hi : i = .div a b) (hb : s.reg b = 0) : Fails s i s.console (.divideByZero s.fetchWord)
  | code (hi : i = .syscall 7) : Fails s i s.console (.invalidSyscall 7)
  | character (hi : i = .syscall 2) (h : charValid s.cfg (s.reg r7) = false) :
      Fails s i s.console (.invalidCharacter (s.reg r7))
  | string (hi : i = .syscall 3) (written : List Word) (v : Word) (h : StringFailsAt s written v) :
      Fails s i (s.console.write written) (.invalidCharacter v)
  | line (hi : i = .syscall 4) (l rest : List Word) (h : s.console.inp.readLine s.cfg.stripCr = .got l rest)
      (hl : parseUint l = none) : Fails s i (s.console.consume rest) (.parseError l)
  | input (hi : i = .syscall 5) (harr : s.console.inp.arrived = []) (hend : s.console.inp.ended = true) :
      Fails s i s.console .inputExhausted

/-- Everything that instruction `i` can make of the state `s`, with what it takes of `i` and `s` to do so. -/
inductive Effect (s : State) (i : Instr) : State → Prop
  | noop : Effect s i s.retire
  | writeReg (d : Reg) (v : Word) (hd : mayWriteReg d i = true) : Effect s i (s.setReg d v).retire
  | writeHiLo (h l : Word) (hi : ∃ a b, i = .mul a b ∨ i = .div a b) : Effect s i (s.setHiLo h l).retire
  | writeMem (a : Addr) (v : Word) (hi : (∃ n, i = .si a n) ∨ ∃ r, i = .sw r a) : Effect s i (s.memWrite a v).retire
  | branch (c : Bool) (a : Addr) (hi : JumpsTo i a) : Effect s i (s.branch c a)
  | print (cs : List Word) (hi : i = .syscall 1 ∨ i = .syscall 2 ∨ i = .syscall 3)
      (hcs : ∀ c ∈ cs, charValid s.cfg c = true ∨ isDigit c = true) :
      Effect s i (State.retire { s with console := s.console.write cs })
  | readReg (v : Word) (used rest : List Word) (hi : i = .syscall 4 ∨ i = .syscall 5)
      (harr : s.console.inp.arrived = used ++ rest) :
      Effect s i (State.setReg { s with console := s.console.consume rest } r7 v).retire
  | readMem (cs used rest : List Word) (hi : i = .syscall 6) (harr : s.console.inp.arrived = used ++ rest) :
      Effect s i (State.retire
        { s with mem := s.mem.writeFrom (s.reg r7).toNat cs, console := s.console.consume rest })
  | wait (f : BitVec 3) (hi : i = .syscall f) (hf : f = 4 ∨ f = 5 ∨ f = 6) (hhold : (syscallMux f s).hold = true) :
      Effect s i s.hold
  | halt (hi : i = .halt) : Effect s i (s.halt .haltLiteral)
  | fatal (c : Console) (r : FatalReason) (hr : Fails s i c r) : Effect s i (State.raiseFatal { s with console := c } r)

section
variable (s : State)

/-- A walk of syscall 3 that fails meets R122's failing word: the words before it are those that it wrote. -/
theorem stringFailsAt_of_scanString {v : Word}
    (h : (scanString s.cfg (s.mem.wordsFrom (s.reg r7).toNat)).2 = some v) :
    StringFailsAt s (scanString s.cfg (s.mem.wordsFrom (s.reg r7).toNat)).1 v := by
  obtain ⟨hc, hall | ⟨rest, -, hnone⟩ | ⟨v', rest, hwords, hsome, hne, hinvalid⟩⟩ :=
    scanString_cases s.cfg (s.mem.wordsFrom (s.reg r7).toNat)
  · rw [hall] at h
    cases h
  · rw [hnone] at h
    cases h
  · obtain rfl : v' = v := Option.some.inj (hsome.symm.trans h)
    generalize (scanString s.cfg (s.mem.wordsFrom (s.reg r7).toNat)).1 = written at hc hwords ⊢
    have hlen := congrArg List.length hwords
    simp only [Memory.wordsFrom, List.length_map, List.length_range', List.length_append, List.length_cons] at hlen
    have hlt : (s.reg r7).toNat + written.length < memWords := by omega
    rw [s.mem.wordsFrom_eq_append hlt.le, s.mem.wordsFrom_of_lt hlt] at hwords
    obtain ⟨hwritten, hv⟩ := List.append_inj hwords (by simp)
    exact ⟨hlt, hwritten.symm, hc, (List.cons.inj hv).1.symm, hne, hinvalid⟩

/-- Codes 0 to 3 and 7, which do not read. -/
theorem exec_effect_nonreading (f : BitVec 3) (hf : f = 0 ∨ f = 1 ∨ f = 2 ∨ f = 3 ∨ f = 7) :
    ∃ t, exec (.syscall f) s = .next t ∧ Effect s (.syscall f) t := by
  obtain rfl | rfl | rfl | rfl | rfl := hf
  · exact ⟨_, exec_syscall_zero s, .noop⟩
  · obtain ⟨hnum, -⟩ := decimal_spec (s.reg r7)
    exact ⟨_, exec_syscall_one s, .print _ (.inl rfl) fun c hc => .inr (hnum.digits c hc)⟩
  · cases h : charValid s.cfg (s.reg r7) with
    | true => exact ⟨_, exec_syscall_two_of_valid h, .print _ (.inr (.inl rfl)) (by simp [h])⟩
    | false => exact ⟨_, exec_syscall_two_of_invalid h, .fatal _ _ (.character rfl h)⟩
  · obtain ⟨hc, -⟩ := scanString_cases s.cfg (s.mem.wordsFrom (s.reg r7).toNat)
    cases h : (scanString s.cfg (s.mem.wordsFrom (s.reg r7).toNat)).2 with
    | none =>
      exact ⟨_, exec_syscall_three_of_valid (Prod.ext rfl h), .print _ (.inr (.inr rfl)) fun c h => .inl (hc c h).2⟩
    | some v =>
      exact ⟨_, exec_syscall_three_of_invalid (Prod.ext rfl h),
        .fatal _ _ (.string rfl _ _ (stringFailsAt_of_scanString s h))⟩
  · exact ⟨_, exec_syscall_seven s, .fatal _ _ (.code rfl)⟩

/-- Codes 4, 5 and 6, which read. -/
theorem exec_effect_reading (f : BitVec 3) (hf : f = 4 ∨ f = 5 ∨ f = 6) :
    ∃ t, exec (.syscall f) s = .next t ∧ Effect s (.syscall f) t := by
  obtain rfl | rfl | rfl := hf
  · cases h : s.console.inp.readLine s.cfg.stripCr with
    | wait => exact ⟨_, exec_syscall_four_of_wait h, .wait 4 rfl (.inl rfl) (by simp [syscallMux, sysReadInt, h])⟩
    | endOfInput => exact ⟨_, exec_syscall_four_of_end h, .noop⟩
    | got cs rest =>
      obtain ⟨used, harr⟩ := InputStream.readLine_got_append h
      cases hcs : parseUint cs with
      | some v => exact ⟨_, exec_syscall_four_of_got h hcs, .readReg v used rest (.inl rfl) harr⟩
      | none => exact ⟨_, exec_syscall_four_of_malformed h hcs, .fatal _ _ (.line rfl cs rest h hcs)⟩
  · cases harr : s.console.inp.arrived with
    | cons c rest =>
      exact ⟨_, exec_syscall_five_of_got (InputStream.readChar_of_cons harr), .readReg c [c] rest (.inr rfl) harr⟩
    | nil =>
      cases hend : s.console.inp.ended with
      | true =>
        exact ⟨_, exec_syscall_five_of_end (InputStream.readChar_of_ended harr hend), .fatal _ _ (.input rfl harr hend)⟩
      | false =>
        have h := InputStream.readChar_of_not_ended harr hend
        exact ⟨_, exec_syscall_five_of_wait h, .wait 5 rfl (.inr (.inl rfl)) (by simp [syscallMux, sysReadChar, h])⟩
  · cases h : s.console.inp.readLine s.cfg.stripCr with
    | wait =>
      exact ⟨_, exec_syscall_six_of_wait h, .wait 6 rfl (.inr (.inr rfl)) (by simp [syscallMux, sysReadString, h])⟩
    | endOfInput => exact ⟨_, exec_syscall_six_of_end h, .noop⟩
    | got cs rest =>
      obtain ⟨used, harr⟩ := InputStream.readLine_got_append h
      exact ⟨_, exec_syscall_six_of_got h, .readMem cs used rest rfl harr⟩

/-- Every instruction has a next state, and that is one of its effects. -/
theorem exec_effect (i : Instr) : ∃ t, exec i s = .next t ∧ Effect s i t := by
  cases i with
  | mov _ d | not _ d | and _ _ d | or _ _ d | add _ _ d | sub _ _ d | mfhi d | mflo d | li d _ | lw _ d =>
    exact ⟨_, rfl, .writeReg d _ (beq_self_eq_true d)⟩
  | mul a b => exact ⟨_, rfl, .writeHiLo _ _ ⟨a, b, .inl rfl⟩⟩
  | div a b =>
    obtain ⟨hb, hexec⟩ | ⟨-, hexec⟩ := exec_div_cases a b s
    · exact ⟨_, hexec, .fatal _ _ (.divisor a b rfl hb)⟩
    · exact ⟨_, hexec, .writeHiLo _ _ ⟨a, b, .inr rfl⟩⟩
  | si a n => exact ⟨_, rfl, .writeMem a _ (.inl ⟨n, rfl⟩)⟩
  | sw r a => exact ⟨_, rfl, .writeMem a _ (.inr ⟨r, rfl⟩)⟩
  | j a => exact ⟨_, rfl, .branch true a (.inl rfl)⟩
  | je x y a | jne x y a | jgt x y a | jlt x y a | jge x y a | jle x y a =>
    exact ⟨_, rfl, .branch _ a (.inr ⟨x, y, by simp⟩)⟩
  | halt => exact ⟨_, rfl, .halt rfl⟩
  | syscall f =>
    have hcodes : ∀ f : BitVec 3, (f = 0 ∨ f = 1 ∨ f = 2 ∨ f = 3 ∨ f = 7) ∨ (f = 4 ∨ f = 5 ∨ f = 6) := by decide
    exact (hcodes f).elim (exec_effect_nonreading s f) (exec_effect_reading s f)
  | invalid22 op => exact ⟨_, rfl, .fatal _ _ (.opcode op (.inl rfl))⟩
  | invalid24 op => exact ⟨_, rfl, .fatal _ _ (.opcode op (.inr rfl))⟩

end

/-- What an instruction that was run has done. -/
theorem effect_of_exec {s t : State} {i : Instr} (he : exec i s = .next t) : Effect s i t := by
  obtain ⟨t', he', heff⟩ := exec_effect s i
  obtain rfl : t' = t := Host.Outcome.next.inj (he'.symm.trans he)
  exact heff

/-- What a step has done: at the end of the memory a halt (R74), else the effect of the fetched instruction. -/
theorem step_effect {s t : State} (hs : step s = .next t) : s.run = .running ∧
    ((s.exhausted = true ∧ t = s.halt .pcExhausted) ∨ (s.exhausted = false ∧ Effect s (decode s.fetchWord) t)) :=
  (step_cases hs).imp_right (Or.imp_right (And.imp_right effect_of_exec))

end Sys2Proof.Machine

/-! ### Field by field: where an effect writes -/

namespace Sys2Proof.Machine

namespace Effect

variable {s t : State} {i : Instr}

/-- Memory is as it was, or written by a store or by syscall 6. -/
theorem mem_cases (h : Effect s i t) : t.mem = s.mem ∨
    (∃ a v, t.mem = s.mem.write a v ∧ ((∃ n, i = .si a n) ∨ ∃ r, i = .sw r a)) ∨
    (∃ cs, t.mem = s.mem.writeFrom (s.reg r7).toNat cs ∧ i = .syscall 6) := by
  cases h with
  | writeMem a v hi => exact .inr (.inl ⟨a, v, rfl, hi⟩)
  | readMem cs _ _ hi => exact .inr (.inr ⟨cs, rfl, hi⟩)
  | branch c a => exact .inl (s.branch_mem c a)
  | wait => exact .inl s.hold_mem
  | _ => exact .inl rfl

/-- A register that the instruction may not write is as it was. -/
theorem reg_eq (h : Effect s i t) {r : Reg} (hr : mayWriteReg r i = false) : t.reg r = s.reg r := by
  have hother : ∀ {c : Console} {d : Reg} {v : Word}, mayWriteReg d i = true →
      (State.setReg { s with console := c } d v).retire.reg r = s.reg r := fun {c d v} hd =>
    s.sameRegsBut_retire_setReg_console c d v r fun hrd => by simp [hrd, hd] at hr
  cases h with
  | writeReg d v hd => exact hother hd
  | readReg v used rest hi =>
    refine hother ?_
    obtain rfl | rfl := hi <;> rfl
  | branch c a => exact s.branch_reg c a r
  | wait => exact s.hold_reg r
  | _ => rfl

/-- The fixed parameters are as they were (R7). -/
theorem cfg_eq (h : Effect s i t) : t.cfg = s.cfg := by
  cases h with
  | branch c a => exact s.branch_cfg c a
  | wait => exact s.hold_cfg
  | _ => rfl

/-- `pc` goes on, or lands past a jump's target; it stays only where the run ends or waits. -/
theorem pc_cases (h : Effect s i t) : t.pc = s.pc + 1 ∨
    (t.pc = s.pc ∧ (t.run = .running → ∃ f, i = .syscall f ∧ (syscallMux f s).hold = true)) ∨
    ∃ a : Addr, t.pc.toNat = a.toNat + 1 ∧ JumpsTo i a := by
  cases h with
  | branch c a hi =>
    cases c with
    | true => exact .inr (.inr ⟨a, s.toNat_pc_branch_true a, hi⟩)
    | false => exact .inl rfl
  | wait f hi _ hhold => exact .inr (.inl ⟨s.hold_pc, fun _ => ⟨f, hi, hhold⟩⟩)
  | halt | fatal => exact .inr (.inl ⟨rfl, nofun⟩)
  | _ => exact .inl rfl

/-- The run goes on unless the instruction is the halt literal or fails. -/
theorem run_cases (h : Effect s i t) : t.run = s.run ∨ (i = .halt ∧ t = s.halt .haltLiteral) ∨
    ∃ c r, Fails s i c r ∧ t = State.raiseFatal { s with console := c } r := by
  cases h with
  | halt hi => exact .inr (.inl ⟨hi, rfl⟩)
  | fatal c r hr => exact .inr (.inr ⟨c, r, hr, rfl⟩)
  | branch c a => exact .inl (s.branch_run c a)
  | wait => exact .inl s.hold_run
  | _ => exact .inl rfl

end Effect

/-! ### The console: what was written and what was taken -/

/-- The console `c'` is `c` after `cs` was written and `used` was taken from the front of what had arrived. -/
structure ConsoleMoves (c c' : Console) (cs used : List Word) : Prop where
  out : c'.out = c.out ++ cs
  arrived : c.inp.arrived = used ++ c'.inp.arrived
  ended : c'.inp.ended = c.inp.ended
  coming : c'.inp.coming = c.inp.coming

theorem ConsoleMoves.refl (c : Console) : ConsoleMoves c c [] [] := ⟨by simp, rfl, rfl, rfl⟩

theorem ConsoleMoves.write (c : Console) (cs : List Word) : ConsoleMoves c (c.write cs) cs [] := ⟨rfl, rfl, rfl, rfl⟩

theorem ConsoleMoves.consume {c : Console} {used rest : List Word} (h : c.inp.arrived = used ++ rest) :
    ConsoleMoves c (c.consume rest) [] used := ⟨by simp [Console.consume], h, rfl, rfl⟩

/-- Where nothing was taken the input is as it was. -/
theorem ConsoleMoves.inp_eq {c c' : Console} {cs : List Word} (h : ConsoleMoves c c' cs []) : c'.inp = c.inp := by
  obtain ⟨-, harr, hend, hcoming⟩ := h
  cases hc : c.inp
  cases hc' : c'.inp
  simp_all

/-- What a failing instruction leaves in the console (R128). -/
theorem Fails.console {s : State} {i : Instr} {c : Console} {r : FatalReason} (h : Fails s i c r) :
    ∃ cs used, ConsoleMoves s.console c cs used ∧ (∀ x ∈ cs, charValid s.cfg x = true ∨ isDigit x = true) ∧
      (cs ≠ [] → i = .syscall 3) ∧ (used ≠ [] → i = .syscall 4) := by
  cases h with
  | string hi written v h =>
    obtain ⟨-, -, hvalid, -⟩ := h
    exact ⟨written, [], .write _ _, fun x hx => .inl (hvalid x hx).2, fun _ => hi, nofun⟩
  | line hi l rest hl =>
    obtain ⟨used, harr⟩ := InputStream.readLine_got_append hl
    exact ⟨[], used, .consume harr, nofun, nofun, fun _ => hi⟩
  | _ => exact ⟨[], [], .refl _, nofun, nofun, nofun⟩

/-- Instruction `i` moves the console on from `s` to `t`: it writes characters or digits as syscall 1, 2 or 3, and takes
as syscall 4, 5 or 6 (R29, R111). -/
def ConsoleStep (s : State) (i : Instr) (t : State) : Prop :=
  ∃ cs used, ConsoleMoves s.console t.console cs used ∧
    (∀ x ∈ cs, charValid s.cfg x = true ∨ isDigit x = true) ∧
    (cs ≠ [] → ∃ f, i = .syscall f ∧ (f = 1 ∨ f = 2 ∨ f = 3)) ∧
    (used ≠ [] → ∃ f, i = .syscall f ∧ (f = 4 ∨ f = 5 ∨ f = 6))

theorem consoleStep_of_eq {s t : State} {i : Instr} (h : t.console = s.console) : ConsoleStep s i t :=
  ⟨[], [], h ▸ .refl _, nofun, nofun, nofun⟩

/-- An instruction waits for input or moves the console on. -/
theorem Effect.console_cases {s t : State} {i : Instr} (h : Effect s i t) :
    (∃ f, i = .syscall f ∧ (f = 4 ∨ f = 5 ∨ f = 6) ∧ (syscallMux f s).hold = true ∧ t = s.hold) ∨
    ConsoleStep s i t := by
  cases h with
  | wait f hi hf hhold => exact .inl ⟨f, hi, hf, hhold, rfl⟩
  | print cs hi hcs =>
    refine .inr ⟨cs, [], .write _ _, hcs, fun _ => ?_, nofun⟩
    obtain hi | hi | hi := hi <;> exact ⟨_, hi, by decide⟩
  | readReg v used rest hi harr =>
    refine .inr ⟨[], used, .consume harr, nofun, nofun, fun _ => ?_⟩
    obtain hi | hi := hi <;> exact ⟨_, hi, by decide⟩
  | readMem cs used rest hi harr =>
    exact .inr ⟨[], used, .consume harr, nofun, nofun, fun _ => ⟨6, hi, by decide⟩⟩
  | fatal c r hr =>
    obtain ⟨cs, used, hmoves, hcs, hwrote, htook⟩ := hr.console
    exact .inr ⟨cs, used, hmoves, hcs, fun h => ⟨3, hwrote h, by decide⟩, fun h => ⟨4, htook h, by decide⟩⟩
  | branch c a => exact .inr (consoleStep_of_eq (s.branch_console c a))
  | _ => exact .inr (consoleStep_of_eq rfl)

/-- A wait is what the statements call one (R80). -/
theorem State.waits_of_hold {s : State} {f : BitVec 3} (hrun : s.run = .running) (hx : s.exhausted = false)
    (hi : decode s.fetchWord = .syscall f) (hhold : (syscallMux f s).hold = true) : s.waits = true := by
  simp [State.waits, hrun, hx, hi, hhold]

/-- A step is a wait or moves the console on. -/
theorem step_console_cases {s t : State} (hs : step s = .next t) :
    (s.waits = true ∧ t = s.hold ∧ ∃ f, decode s.fetchWord = .syscall f ∧ (f = 4 ∨ f = 5 ∨ f = 6)) ∨
    ConsoleStep s (decode s.fetchWord) t := by
  obtain ⟨hrun, ⟨-, rfl⟩ | ⟨hx, h⟩⟩ := step_effect hs
  · exact .inr (consoleStep_of_eq rfl)
  · exact h.console_cases.imp_left fun ⟨f, hi, hf, hhold, ht⟩ => ⟨State.waits_of_hold hrun hx hi hhold, ht, f, hi, hf⟩

/-! ### The causes of an end, and the next fetch -/

/-- R57, R77: every word of opcode 22 or more is fatal, with its opcode. -/
theorem exec_of_opcode_ge {s : State} {w : Word} (hop : 22 ≤ opcodeBits w) :
    exec (decode w) s = .next (s.raiseFatal (.invalidOpcode (fieldOpcode w))) := by
  obtain h | h := decode_eq_invalid hop <;> rw [h] <;> rfl

/-- A state in which the run goes on has no end to explain. -/
theorem endIsPrecise_of_running {s t : State} (h : t.run = .running) : EndIsPrecise s t := by
  rw [EndIsPrecise, h]
  trivial

/-- Each way to fail is the cause that R127 gives for its reason: nothing it looked at has changed (R128). -/
theorem Fails.fatalCause {s : State} {c : Console} {r : FatalReason} (h : Fails s (decode s.fetchWord) c r) :
    FatalCause s (State.raiseFatal { s with console := c } r) r := by
  cases h with
  | opcode op hi => exact fieldOpcode_of_decode_invalid hi
  | divisor a b hi hb => exact ⟨rfl, a, b, hi, hb⟩
  | code hi => exact ⟨rfl, hi⟩
  | character hi h => exact .inl ⟨hi, rfl, h⟩
  | string hi written v h => exact .inr ⟨hi, written, h, rfl⟩
  | line hi l rest h hl => exact ⟨hi, hl, h⟩
  | input hi harr hend => exact ⟨hi, harr, hend⟩

/-- Below 256 the increment of the 32-bit `pc` does not wrap (R78). -/
theorem toNat_add_one {pc : Word} (hpc : pc.toNat < 256) : (pc + 1).toNat = pc.toNat + 1 := by
  bv_omega

/-- The step after one that moved `pc` on by one runs what memory holds at the next index (R46). -/
theorem step_at_next {s t : State} {a : Addr} (hrun : t.run = .running) (hpc : t.pc = s.pc + 1)
    (hlt : s.pc.toNat < 255) (ha : a.toNat = s.pc.toNat + 1) : step t = exec (decode (t.memRead a)) t := by
  have hnext : t.pc.toNat = a.toNat := by
    rw [hpc, toNat_add_one (by omega), ha]
  have haddr : t.pc.setWidth 8 = a := by
    apply BitVec.eq_of_toNat_eq
    rw [BitVec.toNat_setWidth, hnext, Nat.mod_eq_of_lt a.isLt]
  rw [step_of_fetched hrun (State.exhausted_eq_false (by omega)), State.fetchWord, haddr]

/-- R79: a halted state has no step. -/
theorem step_of_halted {s : State} {c : HaltCause} (h : s.run = .halted c) : step s = .fault (.noStepHalted c) := by
  simp [step, loopStep, h]

/-- R79: a fatal state has no step. -/
theorem step_of_fatal {s : State} {r : FatalReason} (h : s.run = .fatal r) : step s = .fault (.noStepFatal r) := by
  simp [step, loopStep, h]

/-! ### The invariant -/

namespace InputStream.Ok

variable {i : InputStream}

/-- What is left of an input of code points is one. -/
theorem of_append {j : InputStream} (h : i.Ok) {used : List Word} (harr : i.arrived = used ++ j.arrived)
    (hcoming : j.coming = i.coming) : j.Ok := by
  obtain ⟨harrOk, hcomingOk⟩ := h
  exact ⟨fun c hc => harrOk c (harr ▸ List.mem_append_right used hc), hcoming ▸ hcomingOk⟩

/-- A host that delivers code points keeps the input one of code points. -/
theorem deliver (h : i.Ok) {e : HostEvent} (he : ∀ cs, e = .append cs → ∀ c ∈ cs, c.toNat ≤ maxCodePoint.toNat) :
    (i.deliver e).Ok := by
  unfold InputStream.deliver
  split_ifs
  · exact h
  · obtain ⟨harr, hcoming⟩ := h
    cases e with
    | append cs => exact ⟨List.forall_mem_append.2 ⟨harr, he cs rfl⟩, hcoming⟩
    | endOfInput => exact ⟨harr, hcoming⟩

end InputStream.Ok

/-- A wait keeps the input one of code points: what the host does next is part of it. -/
theorem State.hold_inp_ok {s : State} (h : s.console.inp.Ok) : s.hold.console.inp.Ok := by
  cases hcoming : s.console.inp.coming with
  | nil => rwa [State.hold_of_nil hcoming]
  | cons e rest =>
    obtain ⟨harr, hall⟩ := h
    rw [hcoming] at hall
    rw [State.hold_inp_of_cons hcoming]
    have hrest : InputStream.Ok { s.console.inp with coming := rest } :=
      ⟨harr, fun cs hcs => hall cs (List.mem_cons_of_mem e hcs)⟩
    exact hrest.deliver fun cs he => hall cs (he ▸ List.mem_cons_self)

/-- A step keeps memory canonical. -/
theorem step_wf {s t : State} (hs : step s = .next t) (hwf : Memory.wf s.mem = true) : Memory.wf t.mem = true := by
  obtain ⟨-, ⟨-, rfl⟩ | ⟨-, h⟩⟩ := step_effect hs
  · exact hwf
  · obtain hmem | ⟨a, v, hmem, -⟩ | ⟨cs, hmem, -⟩ := h.mem_cases <;> rw [hmem]
    · exact hwf
    · exact Memory.write_wf a v hwf
    · exact Memory.writeFrom_wf _ cs hwf

/-- A step keeps `pc` in 1..256 (R20, R41). -/
theorem step_pc_bounds {s t : State} (hs : step s = .next t) (hpc : 1 ≤ s.pc.toNat ∧ s.pc.toNat ≤ 256) :
    1 ≤ t.pc.toNat ∧ t.pc.toNat ≤ 256 := by
  obtain ⟨-, ⟨-, rfl⟩ | ⟨hx, h⟩⟩ := step_effect hs
  · exact hpc
  · have hlt : s.pc.toNat < 256 := Nat.lt_of_not_le (of_decide_eq_false hx)
    obtain hnext | ⟨hsame, -⟩ | ⟨a, ha, -⟩ := h.pc_cases
    · rw [hnext, toNat_add_one hlt]
      omega
    · rwa [hsame]
    · omega

/-- A step changes no fixed parameter. -/
theorem step_cfg {s t : State} (hs : step s = .next t) : t.cfg = s.cfg := by
  obtain ⟨-, ⟨-, rfl⟩ | ⟨-, h⟩⟩ := step_effect hs
  · rfl
  · exact h.cfg_eq

end Sys2Proof.Machine

namespace Sys2Proof.Proofs

open Sys2Proof.Machine

/-- Settles O47: every way in which an instruction fails is the cause of its reason, seen in a state in which only the
console and the run state have changed. -/
theorem everyEndHasItsCause : Obligations.EveryEndHasItsCause := by
  intro s t hs
  obtain ⟨hrun, ⟨hx, rfl⟩ | ⟨hx, h⟩⟩ := step_effect hs
  · exact hx
  · obtain hgoes | ⟨hi, rfl⟩ | ⟨c, r, hr, rfl⟩ := h.run_cases
    · exact endIsPrecise_of_running (hgoes.trans hrun)
    · exact ⟨hx, (decode_eq_halt_iff _).1 hi⟩
    · exact ⟨hx, hr.fatalCause⟩

/-- Settles O50: memory, `pc`, input and output each keep their part, and the parameters that say which characters are
valid are fixed. -/
theorem everyStepKeepsTheInvariant : Obligations.EveryStepKeepsTheInvariant := by
  intro s t hok hs
  obtain ⟨hlow, hhigh⟩ := step_pc_bounds hs ⟨hok.pcLow, hok.pcHigh⟩
  refine ⟨step_wf hs hok.mem, hlow, hhigh, ?_, ?_⟩
  · obtain ⟨-, rfl, -⟩ | ⟨cs, used, hmoves, -⟩ := step_console_cases hs
    · exact State.hold_inp_ok hok.inp
    · exact hok.inp.of_append hmoves.arrived hmoves.coming
  · rw [State.OutputOk, step_cfg hs]
    obtain ⟨-, rfl, -⟩ | ⟨cs, used, hmoves, hcs, -⟩ := step_console_cases hs
    · rw [s.hold_out]
      exact hok.out
    · rw [hmoves.out]
      exact List.forall_mem_append.2 ⟨hok.out, hcs⟩

/-- Settles O24: only the stores and syscall 6 write memory, and a write changes no word but the one it writes. -/
theorem onlyStoresChangeMemory : Obligations.OnlyStoresChangeMemory := by
  intro s t a hwf hs hne
  obtain ⟨-, ⟨-, rfl⟩ | ⟨-, h⟩⟩ := step_effect hs
  · exact absurd rfl hne
  · obtain hmem | ⟨b, v, hmem, hi⟩ | ⟨cs, hmem, hi⟩ := h.mem_cases <;>
      simp only [State.memRead, hmem] at hne
    · exact absurd rfl hne
    · rw [Memory.read_write b v a hwf] at hne
      obtain rfl : a = b := by
        by_contra hab
        exact hne (if_neg hab)
      exact hi.imp_right .inl
    · rw [Memory.read_writeFrom _ cs a hwf] at hne
      refine .inr (.inr ⟨hi, ?_⟩)
      by_contra hle
      exact hne (if_neg fun hrange => hle hrange.1)

/-- Settles O25: the store leaves `pc` at the next index, where memory now reads as what was stored. -/
theorem nextFetchSeesTheStore : Obligations.NextFetchSeesTheStore := by
  intro s a hwf hrun hlt ha runs nextRuns
  have hnext : ∀ {i t w}, runs i → exec i s = .next t → t.run = s.run → t.pc = s.pc + 1 → t.memRead a = w →
      nextRuns w := by
    intro i t w hi hexec htrun hpc hw
    have hstep : step s = exec (decode s.fetchWord) s := step_of_fetched hrun (State.exhausted_eq_false (by omega))
    have hdec : decode s.fetchWord = i := hi
    exact ⟨t, by rw [hstep, hdec, hexec], by rw [step_at_next (htrun.trans hrun) hpc hlt ha, hw]⟩
  refine ⟨fun r hi => ?_, fun n hi => ?_, fun cs rest hi hread hle hlen => ?_⟩
  · exact hnext hi rfl rfl rfl (State.memRead_retire_memWrite hwf a _)
  · rw [BitVec.ofNat_toNat]
    exact hnext hi rfl rfl rfl (State.memRead_retire_memWrite hwf a _)
  · exact hnext hi (exec_syscall_six_of_got hread) rfl rfl
      ((Memory.read_writeFrom (s.reg r7).toNat cs a hwf).trans (if_pos ⟨hle, hlen⟩))

/-- Settles O42: the frames of an instruction's effects, for a syscall. -/
theorem syscallsTouchOnlyR7AndMemory : Obligations.SyscallsTouchOnlyR7AndMemory := by
  intro s t f he
  have h := effect_of_exec he
  refine ⟨fun r hr => h.reg_eq (by simp [mayWriteReg, hr]), exec_sameHiLo (by simp) he, h.cfg_eq, fun hf a => ?_,
    fun h4 h5 => h.reg_eq (by simpa [mayWriteReg] using ⟨h4, h5⟩)⟩
  obtain hmem | ⟨a, v, -, hi⟩ | ⟨cs, -, hi⟩ := h.mem_cases
  · exact s.memRead_congr hmem a
  · exact absurd hi (by simp)
  · exact absurd (Instr.syscall.inj hi) hf

/-- Settles O43: an effect writes no register that its instruction does not name. -/
theorem onlyDestinationsChangeRegisters : Obligations.OnlyDestinationsChangeRegisters := by
  intro s t r hs
  refine ⟨fun hne => ?_, step_cfg hs⟩
  obtain ⟨-, ⟨-, rfl⟩ | ⟨-, h⟩⟩ := step_effect hs
  · exact absurd rfl hne
  · by_contra hr
    exact hne (h.reg_eq (Bool.eq_false_of_not_eq_true hr))

/-- Settles O44: a step waits, or it moves the console on as its syscall says. -/
theorem onlySyscallsReachTheConsole : Obligations.OnlySyscallsReachTheConsole := by
  intro s t hs
  obtain ⟨hwaits, rfl, hreads⟩ | ⟨cs, used, hmoves, -, hwrote, htook⟩ := step_console_cases hs
  · exact ⟨⟨[], by simp, nofun⟩, fun _ => hreads, fun h => by simp [hwaits] at h⟩
  · refine ⟨⟨cs, hmoves.out, hwrote⟩, fun hne => htook fun hused => ?_,
      fun _ => ⟨used, hmoves.arrived, hmoves.ended, hmoves.coming⟩⟩
    subst hused
    exact hne hmoves.inp_eq

/-- Settles O45: `pc` stays only where the run ends or waits. -/
theorem pcMovesOnOrJumps : Obligations.PcMovesOnOrJumps := by
  intro s t hs ht
  obtain ⟨hrun, ⟨-, rfl⟩ | ⟨hx, h⟩⟩ := step_effect hs
  · cases ht
  · obtain hnext | ⟨hsame, hstays⟩ | hjump := h.pc_cases
    · exact .inl hnext
    · obtain ⟨f, hi, hhold⟩ := hstays ht
      exact .inr (.inl ⟨State.waits_of_hold hrun hx hi hhold, hsame⟩)
    · exact .inr (.inr hjump)

/-- Settles O46: a failing instruction changes the console and the run state alone. -/
theorem fatalStepsCommitNothing : Obligations.FatalStepsCommitNothing := by
  intro s t r hs ht
  obtain ⟨hrun, ⟨-, rfl⟩ | ⟨-, h⟩⟩ := step_effect hs
  · cases ht
  · obtain hgoes | ⟨-, rfl⟩ | ⟨c, r', hr, rfl⟩ := h.run_cases
    · rw [hgoes, hrun] at ht
      cases ht
    · cases ht
    · obtain ⟨cs, used, hmoves, -, hwrote, htook⟩ := hr.console
      exact ⟨s.sameCore_raiseFatal_console c r', rfl, ⟨cs, hmoves.out, hwrote⟩,
        ⟨used, hmoves.arrived, fun hused => .inl (htook hused)⟩⟩

/-- Settles O10: below 256 the step goes past the exhaustion test to the fetch. -/
theorem stepRunsTheDecodedInstruction : Obligations.StepRunsTheDecodedInstruction := fun _ hrun hpc =>
  step_of_fetched hrun (State.exhausted_eq_false hpc)

/-- Settles O13: a word from 0xB0000000 up has an opcode from 22 up, and both illegal rows have one meaning. -/
theorem illegalOpcodeIsFatal : Obligations.IllegalOpcodeIsFatal := by
  refine ⟨fun s op => ⟨_, rfl, rfl, s.onlyRunChanges_raiseFatal _⟩,
    fun s op => ⟨_, rfl, rfl, s.onlyRunChanges_raiseFatal _⟩, fun s hrun hpc hword => ?_⟩
  change 0xB0000000 ≤ s.fetchWord.toNat at hword
  have hop : 22 ≤ opcodeBits s.fetchWord := by
    rw [opcodeBits, BitVec.extractLsb'_toNat, Nat.shiftRight_eq_div_pow]
    omega
  exact ⟨_, (step_of_fetched hrun (State.exhausted_eq_false hpc)).trans (exec_of_opcode_ge hop), rfl,
    s.onlyRunChanges_raiseFatal _⟩

/-- Settles O14: the loop looks at the run state first. -/
theorem endedRunsHaveNoStep : Obligations.EndedRunsHaveNoStep := fun _ =>
  ⟨fun _ => step_of_halted, fun _ => step_of_fatal⟩

/-- Settles O15: every instruction has an effect. -/
theorem runningCoreAlwaysSteps : Obligations.RunningCoreAlwaysSteps := by
  intro s hrun
  cases hx : s.exhausted with
  | true => exact ⟨_, step_of_exhausted hrun hx⟩
  | false =>
    obtain ⟨t, he, -⟩ := exec_effect s (decode s.fetchWord)
    exact ⟨t, (step_of_fetched hrun hx).trans he⟩

/-- Settles O48: each part of the invariant is evaluated at reset, where nothing has arrived or been written. -/
theorem resetMeetsTheInvariant : Obligations.ResetMeetsTheInvariant :=
  ⟨rfl, rfl, by decide, by decide, ⟨nofun, nofun⟩, nofun⟩

end Sys2Proof.Proofs

/-! Family other, what the host delivers and when (R137; log 6). -/

namespace Sys2Proof.Machine

/-- The code points that a host action appends. -/
def HostEvent.codePoints : HostEvent → List Word
  | .append cs => cs
  | .endOfInput => []

namespace InputStream

variable {i : InputStream} {strip : Bool} (e : HostEvent)

/-- Before the end of the input, a delivery goes behind what has arrived. -/
theorem deliver_arrived (hend : i.ended = false) : (i.deliver e).arrived = i.arrived ++ e.codePoints := by
  cases e <;> simp [deliver, hend, HostEvent.codePoints]

/-- Reading from the front and delivering behind commute. -/
theorem deliver_consume (hend : i.ended = false) (rest : List Word) :
    { i.deliver e with arrived := rest ++ e.codePoints } = deliver { i with arrived := rest } e := by
  cases e <;> simp [deliver, hend, HostEvent.codePoints]

/-- A line at hand before the end of the input is the line at hand after a delivery. -/
theorem readLine_deliver {cs rest : List Word} (hend : i.ended = false) (h : i.readLine strip = .got cs rest) :
    (i.deliver e).readLine strip = .got cs (rest ++ e.codePoints) := by
  obtain ⟨l, hl, harr, rfl⟩ | ⟨hended, -⟩ := readLine_got h
  · exact readLine_of_lineFeed hl (by simp [deliver_arrived e hend, harr])
  · simp [hend] at hended

/-- A code point at hand before the end of the input is the one at hand after a delivery. -/
theorem readChar_deliver {c : Word} {rest : List Word} (hend : i.ended = false) (h : i.arrived = c :: rest) :
    (i.deliver e).readChar = .got c (rest ++ e.codePoints) :=
  readChar_of_cons (by simp [deliver_arrived e hend, h])

end InputStream

/-- The outputs of the syscall_mux with a delivery done to the console they leave. -/
def MuxOut.deliver (o : MuxOut) (e : HostEvent) : MuxOut :=
  { o with console := { o.console with inp := o.console.inp.deliver e } }

section
variable {s t : State} (e : HostEvent)

/-- The console that a read leaves, after a delivery. -/
theorem Console.consume_deliver (hend : s.console.inp.ended = false) (rest : List Word) :
    (s.deliver e).console.consume (rest ++ e.codePoints) =
      { s.console.consume rest with inp := (s.console.consume rest).inp.deliver e } :=
  congrArg (Console.mk s.console.out) (s.console.inp.deliver_consume e hend rest)

/-- A jump, taken or not, takes the delivery along. -/
theorem State.branch_deliver (c : Bool) (a : Addr) : (s.deliver e).branch c a = (s.branch c a).deliver e := by
  cases c <;> rfl

/-- What the step does with the outputs of the mux takes the delivery along, unless it waits. -/
theorem State.applyMux_deliver {o : MuxOut} (hhold : o.hold = false) :
    (s.deliver e).applyMux (o.deliver e) = (s.applyMux o).deliver e := by
  obtain ⟨r7Write, mem, console, hold, fatal⟩ := o
  obtain rfl : hold = false := hhold
  cases fatal with
  | some r => rfl
  | none => cases r7Write <;> rfl

/-- A read of a line that does not wait gives the same outputs after a delivery. -/
theorem sysReadInt_deliver (hend : s.console.inp.ended = false) (hhold : (sysReadInt s).hold = false) :
    sysReadInt (s.deliver e) = (sysReadInt s).deliver e := by
  cases h : s.console.inp.readLine s.cfg.stripCr with
  | wait => simp [sysReadInt, h] at hhold
  | endOfInput => simp [(InputStream.readLine_endOfInput h).2] at hend
  | got cs rest =>
    have h' : (s.deliver e).console.inp.readLine (s.deliver e).cfg.stripCr = .got cs (rest ++ e.codePoints) :=
      InputStream.readLine_deliver e hend h
    simp only [sysReadInt, h, h', Console.consume_deliver e hend]
    cases parseUint cs <;> rfl

/-- The same for a read of a code point. -/
theorem sysReadChar_deliver (hend : s.console.inp.ended = false) (hhold : (sysReadChar s).hold = false) :
    sysReadChar (s.deliver e) = (sysReadChar s).deliver e := by
  cases harr : s.console.inp.arrived with
  | nil => simp [sysReadChar, InputStream.readChar_of_not_ended harr hend] at hhold
  | cons c rest =>
    have h' : (s.deliver e).console.inp.readChar = .got c (rest ++ e.codePoints) :=
      InputStream.readChar_deliver e hend harr
    simp only [sysReadChar, InputStream.readChar_of_cons harr, h', Console.consume_deliver e hend]
    rfl

/-- The same for a read of a line into memory. -/
theorem sysReadString_deliver (hend : s.console.inp.ended = false) (hhold : (sysReadString s).hold = false) :
    sysReadString (s.deliver e) = (sysReadString s).deliver e := by
  cases h : s.console.inp.readLine s.cfg.stripCr with
  | wait => simp [sysReadString, h] at hhold
  | endOfInput => simp [(InputStream.readLine_endOfInput h).2] at hend
  | got cs rest =>
    have h' : (s.deliver e).console.inp.readLine (s.deliver e).cfg.stripCr = .got cs (rest ++ e.codePoints) :=
      InputStream.readLine_deliver e hend h
    simp only [sysReadString, h, h', Console.consume_deliver e hend]
    rfl

/-- A character is printed, or fails, whatever is delivered. -/
theorem sysPrintChar_deliver : sysPrintChar (s.deliver e) = (sysPrintChar s).deliver e := by
  cases h : charValid s.cfg (s.reg r7) <;> simp only [sysPrintChar, State.deliver_cfg, State.deliver_reg, h] <;> rfl

/-- The syscall_mux, unless it waits, gives the same outputs after a delivery. -/
theorem syscallMux_deliver (f : BitVec 3) (hend : s.console.inp.ended = false) (hhold : (syscallMux f s).hold = false) :
    syscallMux f (s.deliver e) = (syscallMux f s).deliver e := by
  have hcodes : ∀ f : BitVec 3, (f = 0 ∨ f = 1 ∨ f = 3 ∨ f = 7) ∨ f = 2 ∨ f = 4 ∨ f = 5 ∨ f = 6 := by decide
  obtain (rfl | rfl | rfl | rfl) | rfl | rfl | rfl | rfl := hcodes f
  · rfl
  · rfl
  · rfl
  · rfl
  · exact sysPrintChar_deliver e
  · exact sysReadInt_deliver e hend hhold
  · exact sysReadChar_deliver e hend hhold
  · exact sysReadString_deliver e hend hhold

/-- A syscall that does not wait takes the delivery along. -/
theorem exec_syscall_deliver {f : BitVec 3} (hend : s.console.inp.ended = false)
    (hhold : (syscallMux f s).hold = false) (he : exec (.syscall f) s = .next t) :
    exec (.syscall f) (s.deliver e) = .next (t.deliver e) := by
  obtain rfl := Host.Outcome.next.inj he
  rw [← State.applyMux_deliver e hhold, ← syscallMux_deliver e f hend hhold]
  rfl

/-- Every other instruction takes the delivery along. -/
theorem exec_deliver {i : Instr} (hi : ∀ f, i ≠ .syscall f) (he : exec i s = .next t) :
    exec i (s.deliver e) = .next (t.deliver e) := by
  cases i with
  | syscall f => exact absurd rfl (hi f)
  | div a b =>
    obtain ⟨hb, hexec⟩ | ⟨hb, hexec⟩ := exec_div_cases a b s <;>
      obtain rfl := Host.Outcome.next.inj (hexec.symm.trans he)
    · exact exec_div_of_eq_zero (s := s.deliver e) hb
    · exact exec_div_of_ne_zero (s := s.deliver e) hb
  | je | jne | jgt | jlt | jge | jle =>
    obtain rfl := Host.Outcome.next.inj he
    exact congrArg Host.Outcome.next (State.branch_deliver e _ _)
  | _ =>
    obtain rfl := Host.Outcome.next.inj he
    rfl

end

end Sys2Proof.Machine

namespace Sys2Proof.Proofs

open Sys2Proof.Machine

/-- Settles O51: what is taken is taken from the front of the input and what is delivered goes behind it. -/
theorem deliveryCommutesWithSteps : Obligations.DeliveryCommutesWithSteps := by
  intro s t e hend hwaits hs
  obtain ⟨hrun, ⟨hx, rfl⟩ | ⟨hx, he⟩⟩ := step_cases hs
  · exact step_of_exhausted (s := s.deliver e) hrun hx
  · rw [step_of_fetched (s := s.deliver e) hrun hx]
    change exec (decode s.fetchWord) (s.deliver e) = _
    by_cases hi : ∃ f, decode s.fetchWord = .syscall f
    · obtain ⟨f, hf⟩ := hi
      have hhold : (syscallMux f s).hold = false := by
        by_contra h
        simp [State.waits_of_hold hrun hx hf (Bool.eq_true_of_not_eq_false h)] at hwaits
      rw [hf] at he ⊢
      exact exec_syscall_deliver e hend hhold he
    · exact exec_deliver e (fun f hf => hi ⟨f, hf⟩) he

end Sys2Proof.Proofs

/-! Family other, the sub-blocks: the control words of R71 do what the handlers of R77 do (R66 to R72). -/

namespace Sys2Proof.Machine

/-- The program_counter's next value is that of a branch (R66, R101). -/
theorem State.branch_eq_pcNext (s : State) (c : Bool) (m : Addr) :
    s.branch c m = { s with pc := pcNext true c m s.pc } := by
  cases c <;> rfl

/-- R71: only the illegal opcodes have no control word. -/
theorem le_of_opcodeDispatch_eq_none {op : BitVec 5} (h : opcodeDispatch op = none) : 22 ≤ op.toNat := by
  revert op
  decide

/-- The control word of `div`: the alu's `dz` holds back the write of HI and LO (R70, R71). -/
theorem exec_div_eq_datapathIssue (s : State) :
    exec (.div (Reg.ofField (fieldRa s.fetchWord)) (Reg.ofField (fieldRb s.fetchWord))) s =
      .next (datapathIssue { aluOp := some .divu, hiLo := some .divide } s.fetchWord s) := by
  cases hdz : divByZero (s.reg (Reg.ofField (fieldRb s.fetchWord))) <;>
    simp only [exec, execDiv, datapathIssue, instructionDecoder, alu, hdz] <;> rfl

/-- The instruction that the dispatch names does what its control word does. -/
theorem exec_eq_datapathIssue {s : State} {c : ControlWord} (hc : opcodeDispatch (fieldOpcode s.fetchWord) = some c) :
    exec (decodeOpcode s.fetchWord) s = .next (datapathIssue c s.fetchWord s) := by
  -- the arms are numbered from 1: arm 8 is `div`, arms 16 to 21 are the branches
  unfold opcodeDispatch at hc
  split at hc <;> rename_i hop <;> cases hc <;> simp only [decodeOpcode, hop]
  case h_8 => exact exec_div_eq_datapathIssue s
  case h_16 | h_17 | h_18 | h_19 | h_20 | h_21 => exact congrArg Host.Outcome.next (s.branch_eq_pcNext _ _)
  all_goals rfl

/-- Past the memory the fetch_unit has no word (R67, R74). -/
theorem datapathStep_of_exhausted {s : State} (hx : s.exhausted = true) : datapathStep s = s.halt .pcExhausted := by
  have hir : (fetchUnit s).ir = none := if_pos hx
  simp only [datapathStep, hir]
  rfl

/-- Inside the memory the fetch_unit hands on the word at `pc` (R67, R75). -/
theorem fetchUnit_ir {s : State} (hx : s.exhausted = false) : (fetchUnit s).ir = some s.fetchWord :=
  if_neg (ne_true_of_eq_false hx)

/-- The halt literal ends the run before the opcode is looked at (R76). -/
theorem datapathStep_of_haltWord {s : State} (hx : s.exhausted = false) (hw : s.fetchWord = haltWord) :
    datapathStep s = s.halt .haltLiteral := by
  have hhalt : (fetchUnit s).haltLit = true := beq_iff_eq.2 ((fetchUnit_ir hx).trans (congrArg some hw))
  simp only [datapathStep, fetchUnit_ir hx, hhalt]
  rfl

/-- Any other word goes by its opcode: to the control word, or to `invalid_opcode` (R71, R77). -/
theorem datapathStep_of_ne_haltWord {s : State} (hx : s.exhausted = false) (hw : s.fetchWord ≠ haltWord) :
    (∀ c, opcodeDispatch (fieldOpcode s.fetchWord) = some c → datapathStep s = datapathIssue c s.fetchWord s) ∧
      (opcodeDispatch (fieldOpcode s.fetchWord) = none →
        datapathStep s = s.raiseFatal (.invalidOpcode (fieldOpcode s.fetchWord))) := by
  have hhalt : (fetchUnit s).haltLit = false :=
    beq_eq_false_iff_ne.2 fun h => hw (Option.some.inj ((fetchUnit_ir hx).symm.trans h))
  constructor
  · intro c hc
    simp only [datapathStep, fetchUnit_ir hx, hhalt, hc]
    rfl
  · intro hc
    simp only [datapathStep, fetchUnit_ir hx, hhalt, hc]
    rfl

end Sys2Proof.Machine

namespace Sys2Proof.Proofs

open Sys2Proof.Machine

/-- Settles O52: the fetch_unit makes the loop's tests, and each opcode's control word does what its handler does. -/
theorem subBlocksTakeTheSameStep : Obligations.SubBlocksTakeTheSameStep := by
  intro s hrun
  cases hx : s.exhausted with
  | true => rw [step_of_exhausted hrun hx, datapathStep_of_exhausted hx]
  | false =>
    rw [step_of_fetched hrun hx]
    by_cases hw : s.fetchWord = haltWord
    · rw [(decode_eq_halt_iff _).2 hw, datapathStep_of_haltWord hx hw]
      rfl
    · obtain ⟨hsome, hnone⟩ := datapathStep_of_ne_haltWord hx hw
      cases hc : opcodeDispatch (fieldOpcode s.fetchWord) with
      | none =>
        rw [hnone hc]
        exact exec_of_opcode_ge (toNat_fieldOpcode s.fetchWord ▸ le_of_opcodeDispatch_eq_none hc)
      | some c =>
        have hdec : decode s.fetchWord = decodeOpcode s.fetchWord := if_neg hw
        rw [hdec, hsome c hc]
        exact exec_eq_datapathIssue hc

end Sys2Proof.Proofs

/-! Family other, launches and runs: the state a launch gives (R22, R141), and what holds in every state of a run
(R29, R82). -/

namespace Sys2Proof.Machine

/-! ### The memory of a launch -/

namespace Launch

variable (p : Launch)

/-- The loader's walks leave the memory canonical. -/
theorem wf_initMem : Memory.wf p.initMem = true :=
  Memory.writeFrom_wf 0 _ (Memory.writeFrom_wf 0 _ rfl)

/-- R22: the image where it reaches, the background past it. -/
theorem read_initMem (a : Addr) : p.initMem.read a =
    if a.toNat < p.image.length then p.image.getD a.toNat 0 else p.background.toList.getD a.toNat 0 := by
  have hbackground :
      Memory.read (Memory.writeFrom [] 0 p.background.toList) a = p.background.toList.getD a.toNat 0 := by
    rw [Memory.read_writeFrom 0 _ a rfl, if_pos ⟨Nat.zero_le _, by simpa using a.isLt⟩, Nat.sub_zero]
  rw [initMem, Memory.read_writeFrom 0 _ a (Memory.writeFrom_wf 0 _ rfl), hbackground]
  simp

/-- The state a launch gives meets the invariant if the input it lists is code points. -/
theorem start_ok {s : State} (h : p.start = some s)
    (hin : ∀ cs, HostEvent.append cs ∈ p.input.coming → ∀ c ∈ cs, c.toNat ≤ 0x10FFFF) : s.Ok := by
  obtain ⟨-, rfl⟩ := Launch.start_some h
  exact ⟨p.wf_initMem, show 1 ≤ resetPc.toNat by decide, show resetPc.toNat ≤ 256 by decide, ⟨nofun, hin⟩, nofun⟩

end Launch

/-! ### What holds in every state of a run -/

/-- Host actions that deliver code points keep the invariant. -/
theorem State.Ok.deliverAll {s : State} (h : s.Ok) {es : List HostEvent}
    (hes : ∀ cs, HostEvent.append cs ∈ es → ∀ c ∈ cs, c.toNat ≤ 0x10FFFF) : (s.deliverAll es).Ok := by
  induction es generalizing s with
  | nil => exact h
  | cons e es ih =>
    have hinp : (s.deliver e).console.inp.Ok := h.inp.deliver fun cs he => hes cs (he ▸ List.mem_cons_self)
    have hok : (s.deliver e).Ok := ⟨h.mem, h.pcLow, h.pcHigh, hinp, h.out⟩
    exact ih hok fun cs hcs => hes cs (List.mem_cons_of_mem e hcs)

/-- The induction over a run: what holds at launch and is kept by every turn holds in every state. -/
theorem Launch.run_induction {p : Launch} {P : Nat → State → Prop} (hstart : ∀ s, p.start = some s → P 0 s)
    (hturn : ∀ n s t, P n s → step (s.deliverAll (p.input.before n)) = .next t → P (n + 1) t) {n : Nat} {s : State}
    (h : p.run n = some (.next s)) : P n s := by
  induction n generalizing s with
  | zero => exact hstart s (Launch.run_zero h)
  | succ n ih =>
    obtain ⟨s', hs', hstep⟩ := Launch.run_succ h
    exact hturn n s' s (ih hs') hstep

/-- The turn after a state of a run is the step after what the host does. -/
theorem Launch.run_succ_of_next {p : Launch} {n : Nat} {s : State} (h : p.run n = some (.next s)) :
    p.run (n + 1) = some (step (s.deliverAll (p.input.before n))) := by
  rw [Launch.run, h]
  rfl

/-- A run that has stopped stays stopped. -/
theorem Launch.run_add_of_fault {p : Launch} {n : Nat} {r : Fault} (h : p.run n = some (.fault r)) (k : Nat) :
    p.run (n + k) = some (.fault r) := by
  induction k with
  | zero => exact h
  | succ k ih =>
    rw [← Nat.add_assoc, Launch.run, ih]
    rfl

/-- R79: in an ended state the step is a fault. -/
theorem step_of_ended {s : State} (h : s.run ≠ .running) : ∃ r, step s = .fault r := by
  cases hr : s.run with
  | running => exact absurd hr h
  | halted c => exact ⟨_, step_of_halted hr⟩
  | fatal r => exact ⟨_, step_of_fatal hr⟩

/-! ### An unbounded input -/

/-- The input in which of the sequence `c` the code points from `k` up to `n` have arrived and are not read. -/
def unreadWindow (c : Nat → Word) (k n : Nat) : InputStream where
  arrived := (List.range' k (n - k)).map c
  ended := false
  coming := []

/-- One more code point of the sequence arrives. -/
theorem unreadWindow_deliver (c : Nat → Word) {k n : Nat} (hk : k ≤ n) :
    (unreadWindow c k n).deliver (.append [c n]) = unreadWindow c k (n + 1) := by
  have hlen : n + 1 - k = n - k + 1 := by omega
  have hlast : k + (n - k) = n := by omega
  simp [InputStream.deliver, unreadWindow, hlen, List.range'_concat, hlast]

/-- Taking from the front of the window moves its start. -/
theorem unreadWindow_of_append {c : Nat → Word} {k n : Nat} {i : InputStream} {used : List Word} (hk : k ≤ n)
    (harr : (unreadWindow c k n).arrived = used ++ i.arrived) (hend : i.ended = false) (hcoming : i.coming = []) :
    ∃ k', k ≤ k' ∧ k' ≤ n ∧ i = unreadWindow c k' n := by
  have hlen := congrArg List.length harr
  simp only [unreadWindow, List.length_map, List.length_range', List.length_append] at hlen
  have hdrop : i.arrived = (unreadWindow c (k + used.length) n).arrived := by
    have hcount : n - k - used.length = n - (k + used.length) := by omega
    have hrest := congrArg (List.drop used.length) harr
    rw [List.drop_left, unreadWindow, ← List.map_drop, List.drop_range', Nat.mul_one, hcount] at hrest
    exact hrest.symm
  refine ⟨k + used.length, by omega, by omega, ?_⟩
  cases i
  simp only [unreadWindow, InputStream.mk.injEq] at hdrop hend hcoming ⊢
  exact ⟨hdrop, hend, hcoming⟩

section
variable {p : Launch} {c : Nat → Word} {n : Nat} {s t : State} (hinput : p.input = .unbounded c)
include hinput

/-- A turn on an unbounded input: one code point arrives behind the window and some are taken from its front. -/
theorem unreadWindow_of_turn {k : Nat} (hk : k ≤ n) (hinp : s.console.inp = unreadWindow c k n)
    (hs : step (s.deliverAll (p.input.before n)) = .next t) :
    ∃ k', k ≤ k' ∧ k' ≤ n + 1 ∧ t.console.inp = unreadWindow c k' (n + 1) := by
  rw [hinput, LaunchInput.before_unbounded, State.deliverAll_cons, State.deliverAll_nil] at hs
  have hfed : (s.deliver (.append [c n])).console.inp = unreadWindow c k (n + 1) := by
    rw [State.deliver_console, hinp, unreadWindow_deliver c hk]
  obtain ⟨-, rfl, -⟩ | ⟨cs, used, hmoves, -⟩ := step_console_cases hs
  · refine ⟨k, le_refl k, by omega, ?_⟩
    rw [State.hold_of_nil (by rw [hfed]; rfl), hfed]
  · obtain ⟨-, harr, hend, hcoming⟩ := hmoves
    rw [hfed] at harr hend hcoming
    exact unreadWindow_of_append (by omega) harr hend hcoming

/-- In every state of a run on an unbounded input, what is unread is a window that ends at the number of turns. -/
theorem exists_unreadWindow (hrun : p.run n = some (.next s)) : ∃ k ≤ n, s.console.inp = unreadWindow c k n := by
  refine Launch.run_induction (P := fun n s => ∃ k ≤ n, s.console.inp = unreadWindow c k n) (fun s hs => ?_)
    (fun n s t ⟨k, hk, hinp⟩ hstep => ?_) hrun
  · obtain ⟨-, rfl⟩ := Launch.start_some hs
    exact ⟨0, le_refl 0, by rw [hinput]; rfl⟩
  · obtain ⟨k', -, hk', hinp'⟩ := unreadWindow_of_turn hinput hk hinp hstep
    exact ⟨k', hk', hinp'⟩

end

end Sys2Proof.Machine

namespace Sys2Proof.Proofs

open Sys2Proof.Machine

/-- Settles O2: the start state is the table's, and the image's walk over the background's leaves each word of its
memory. -/
theorem launchGivesTheResetTable : Obligations.LaunchGivesTheResetTable := by
  intro p
  refine ⟨fun hlen => ⟨_, if_pos hlen, fun _ => rfl, rfl, rfl, rfl, rfl, rfl, rfl, rfl, p.read_initMem⟩,
    fun hlen => if_neg (Nat.not_le.2 hlen)⟩

/-- Settles O49: nothing has arrived or been written, so what the host lists is all there is to check. -/
theorem launchMeetsTheInvariant : Obligations.LaunchMeetsTheInvariant := fun p _ => p.start_ok

/-- Settles O53: a running core has a step whatever the host did, an ended one faults and the run stays there. -/
theorem runsGoOnWhileRunning : Obligations.RunsGoOnWhileRunning := by
  intro p n s h
  refine ⟨fun hrun => ?_, fun hended k t ht => ?_⟩
  · obtain ⟨t, hstep⟩ := runningCoreAlwaysSteps (s.deliverAll (p.input.before n)) (by rwa [State.deliverAll_run])
    exact ⟨t, by rw [Launch.run_succ_of_next h, hstep]⟩
  · obtain ⟨r, hstep⟩ := step_of_ended (s := s.deliverAll (p.input.before n)) (by rwa [State.deliverAll_run])
    have hfault : p.run (n + 1) = some (.fault r) := by rw [Launch.run_succ_of_next h, hstep]
    rw [Launch.run_add_of_fault hfault k] at ht
    cases ht

/-- Settles O54: a turn moves the window of unread code points on at its end by one and at its front by what was
taken. -/
theorem unboundedInputIsReadInOrder : Obligations.UnboundedInputIsReadInOrder := by
  intro p c n s hinput hrun
  obtain ⟨k, hk, hinp⟩ := exists_unreadWindow hinput hrun
  refine ⟨k, hk, hinp, fun t ht => ?_⟩
  obtain ⟨s', hs', hstep⟩ := Launch.run_succ ht
  obtain rfl : s' = s := Host.Outcome.next.inj (Option.some.inj (hs'.symm.trans hrun))
  obtain ⟨k', hle, hk', hinp'⟩ := unreadWindow_of_turn hinput hk hinp hstep
  exact ⟨k', hle, hk', congrArg InputStream.arrived hinp'⟩

/-- Settles O55: the invariant holds at launch, and neither the host's code points nor a step break it. -/
theorem runsMeetTheInvariant : Obligations.RunsMeetTheInvariant := by
  intro p n s hrun hcoming hbefore
  exact Launch.run_induction (P := fun _ s => s.Ok) (fun _ hs => p.start_ok hs hcoming)
    (fun n _ _ hok hstep => everyStepKeepsTheInvariant _ _ (hok.deliverAll (hbefore n)) hstep) hrun

end Sys2Proof.Proofs
